-- ==== Sys2Proof/Word.lean ====
section
/-! DEFINITION. The word types of the execution block and the notation of 00_scope.md R10. -/

namespace Sys2Proof

/-- A register-width value: 32 bits (00_scope.md R6). -/
abbrev Word := BitVec 32

/-- A byte of the program buffer or of data memory (00_scope.md R10). -/
abbrev Byte := BitVec 8

/-- A register field: one byte of the encoding (30_encoding.md R101). It names a register of the machine only
when it is below REG_COUNT (R114), which WellFormed checks against the configuration. -/
abbrev RegIndex := Fin 256

/-- `s32(v)`, the value read as signed two's complement (00_scope.md R10). -/
abbrev s32 (v : Word) : Int := v.toInt

/-- `u32(v)`, the value read as unsigned (00_scope.md R10). -/
abbrev u32 (v : Word) : Nat := v.toNat

/-- `bits32(n)`, the 32-bit vector whose unsigned value is `n mod 2^32` (00_scope.md R10). -/
abbrev bits32 (n : Int) : Word := BitVec.ofInt 32 n

end Sys2Proof
end

