-- ==== Sys2Proof/Machine/Error.lean ====
section
/-! DEFINITION. The error taxonomy of 60_exceptions.md R220, with each error's record and numeric code. -/

namespace Sys2Proof.Machine

/-- The eight errors of 60_exceptions.md R220. They are the machine's own, latched in `err`; raising one is a next
state of the machine and never a `Fault` of the model. -/
inductive VmError where
  /-- An access of `size` bytes at `address` ends beyond MEM_CAP (20_memory.md R61). -/
  | memoryOutOfBounds (address size : Nat)
  /-- An access in bounds whose address is no multiple of its size (20_memory.md R62). -/
  | memoryNotAligned (address size : Nat)
  /-- The leading byte is no opcode (30_encoding.md R107). -/
  | invalidOpcode (opcode : Byte)
  /-- The slice from pc is empty or shorter than the instruction (30_encoding.md R108). -/
  | invalidInstruction
  /-- A register index is not below REG_COUNT: a byte from the decoder (30_encoding.md R110), any natural number
  from the host port (10_state.md R23). -/
  | invalidRegister (register : Nat)
  /-- The divisor is 0 and DIV0_MODE is FAULT (41_arithmetic.md R154). -/
  | divisionByZero
  /-- A pop, or a peek, of the empty stack (20_memory.md R81, R82). -/
  | stackUnderflow
  /-- A push onto the full stack (20_memory.md R80). -/
  | stackOverflow
deriving DecidableEq, Repr

/-- The numeric codes of 60_exceptions.md R220. -/
def VmError.code : VmError → Nat
  | .memoryOutOfBounds _ _ => 0
  | .memoryNotAligned _ _ => 1
  | .invalidOpcode _ => 2
  | .invalidInstruction => 3
  | .invalidRegister _ => 4
  | .divisionByZero => 5
  | .stackUnderflow => 6
  | .stackOverflow => 7

end Sys2Proof.Machine
end

