-- ==== Sys2Proof/Config.lean ====
section
/-! DEFINITION. The implementation parameters of 00_scope.md R7, as plain data that a state carries and no step
changes, and the free values of DIV0_MODE = DRAW. -/

namespace Sys2Proof

/-- CALL_LINK, the value CALL pushes: NEXT is pc + 5, SELF is pc (00_scope.md R7, 43_control.md R194). -/
inductive CallLink where
  | next
  | self
deriving DecidableEq, Repr

/-- DIV0_MODE, what DIV and MOD do with a zero divisor (00_scope.md R7, 41_arithmetic.md R154). -/
inductive Div0Mode where
  | fault
  | draw
deriving DecidableEq, Repr

/-- MOD_OVF, what MOD does to `overflow` (00_scope.md R7, 41_arithmetic.md R151). -/
inductive ModOvf where
  | keep
  | clear
deriving DecidableEq, Repr

/-- The parameters of one VM instance, fixed for the instance (00_scope.md R7). -/
structure Config where
  /-- REG_COUNT, the number of general registers. -/
  regCount : Nat
  /-- MEM_CAP, the data memory capacity in bytes. -/
  memCap : Nat
  /-- STACK_CAP, the stack capacity in entries. -/
  stackCap : Nat
  /-- OPCODE_MAP, the byte of each opcode other than HLT, in the order of the table of 30_encoding.md R102. -/
  opcodeMap : List Byte
  /-- CALL_LINK. -/
  callLink : CallLink
  /-- DIV0_MODE. -/
  div0Mode : Div0Mode
  /-- MOD_OVF. -/
  modOvf : ModOvf
deriving DecidableEq, Repr

/-- The legal ranges of 00_scope.md R7. OPCODE_MAP is a bijection from the 25 opcodes other than HLT onto
0x00..0x18 (30_encoding.md R103): 25 entries, no two equal, none above 0x18. -/
abbrev Config.legal (c : Config) : Prop :=
  1 ≤ c.regCount ∧ c.regCount ≤ 256 ∧ c.memCap ≤ 2 ^ 32 ∧
    c.opcodeMap.length = 25 ∧ c.opcodeMap.Nodup ∧ ∀ b ∈ c.opcodeMap, b.toNat ≤ 0x18

/-- FREE VALUE. The unconstrained 32-bit draw that DIV and MOD by zero write under DIV0_MODE = DRAW
(41_arithmetic.md R154), one for each value of the state's draw counter. Log entry 5. -/
opaque Config.drawResult : Nat → Word

/-- FREE VALUE. The unconstrained Boolean draw that is DIV's wrap bit under DIV0_MODE = DRAW
(41_arithmetic.md R154). Log entry 5. -/
opaque Config.drawWrap : Nat → Bool

end Sys2Proof
end

