-- ==== Sys2Proof/Syntax.lean ====
section
/-! DEFINITION. The 26 instructions of 30_encoding.md R102 and R106, their opcodes and the seven formats of R101. -/

namespace Sys2Proof

/-- The closed opcode set, in the order of the table of 30_encoding.md R102. -/
inductive Opcode where
  | nop | ld | load | store
  | add | sub | mul | div | mod | inc | dec
  | and | or | xor | not | cmp
  | jmp | jn | jnn | jz | call | ret
  | pushreg | popreg | clf | hlt
deriving DecidableEq, Repr

/-- The seven formats of 30_encoding.md R101. -/
inductive Format where
  /-- no operand -/
  | f0
  /-- one register -/
  | f1r
  /-- two registers -/
  | f2r
  /-- three registers -/
  | f3r
  /-- register and immediate -/
  | fri
  /-- register and address -/
  | fra
  /-- address -/
  | fa
deriving DecidableEq, Repr

/-- A decoded instruction with its typed operands, destination first (30_encoding.md R106). An address is a 32-bit
unsigned value (R113) and an immediate a 32-bit value used as it is (R112). -/
inductive Instr where
  /-- NOP, 44_stack_flags_halt.md R204 -/
  | nop
  /-- LD rd, imm, 40_move_memory.md R140 -/
  | ld (rd : RegIndex) (imm : Word)
  /-- LOAD rd, addr, 40_move_memory.md R141 -/
  | load (rd : RegIndex) (addr : Word)
  /-- STORE rs, addr, 40_move_memory.md R142 -/
  | store (rs : RegIndex) (addr : Word)
  /-- ADD rd, rs1, rs2, 41_arithmetic.md R160 -/
  | add (rd rs1 rs2 : RegIndex)
  /-- SUB rd, rs1, rs2, 41_arithmetic.md R161 -/
  | sub (rd rs1 rs2 : RegIndex)
  /-- MUL rd, rs1, rs2, 41_arithmetic.md R162 -/
  | mul (rd rs1 rs2 : RegIndex)
  /-- DIV rd, rs1, rs2, 41_arithmetic.md R163 -/
  | div (rd rs1 rs2 : RegIndex)
  /-- MOD rd, rs1, rs2, 41_arithmetic.md R164 -/
  | mod (rd rs1 rs2 : RegIndex)
  /-- INC rd, 41_arithmetic.md R165 -/
  | inc (rd : RegIndex)
  /-- DEC rd, 41_arithmetic.md R166 -/
  | dec (rd : RegIndex)
  /-- AND rd, rs1, rs2, 42_logical_compare.md R180 -/
  | and (rd rs1 rs2 : RegIndex)
  /-- OR rd, rs1, rs2, 42_logical_compare.md R181 -/
  | or (rd rs1 rs2 : RegIndex)
  /-- XOR rd, rs1, rs2, 42_logical_compare.md R182 -/
  | xor (rd rs1 rs2 : RegIndex)
  /-- NOT rd, rs, 42_logical_compare.md R183 -/
  | not (rd rs : RegIndex)
  /-- CMP ra, rb, 42_logical_compare.md R184 -/
  | cmp (ra rb : RegIndex)
  /-- JMP addr, 43_control.md R190 -/
  | jmp (addr : Word)
  /-- JN addr, 43_control.md R191 -/
  | jn (addr : Word)
  /-- JNN addr, 43_control.md R192 -/
  | jnn (addr : Word)
  /-- JZ addr, 43_control.md R193 -/
  | jz (addr : Word)
  /-- CALL addr, 43_control.md R194 -/
  | call (addr : Word)
  /-- RET, 43_control.md R195 -/
  | ret
  /-- PUSHREG r, 44_stack_flags_halt.md R200 -/
  | pushreg (r : RegIndex)
  /-- POPREG r, 44_stack_flags_halt.md R201 -/
  | popreg (r : RegIndex)
  /-- CLF, 44_stack_flags_halt.md R202 -/
  | clf
  /-- HLT, 44_stack_flags_halt.md R203 -/
  | hlt
deriving DecidableEq, Repr

/-- The opcode of an instruction (30_encoding.md R106). -/
def Instr.opcode : Instr → Opcode
  | .nop => .nop
  | .ld _ _ => .ld
  | .load _ _ => .load
  | .store _ _ => .store
  | .add _ _ _ => .add
  | .sub _ _ _ => .sub
  | .mul _ _ _ => .mul
  | .div _ _ _ => .div
  | .mod _ _ _ => .mod
  | .inc _ => .inc
  | .dec _ => .dec
  | .and _ _ _ => .and
  | .or _ _ _ => .or
  | .xor _ _ _ => .xor
  | .not _ _ => .not
  | .cmp _ _ => .cmp
  | .jmp _ => .jmp
  | .jn _ => .jn
  | .jnn _ => .jnn
  | .jz _ => .jz
  | .call _ => .call
  | .ret => .ret
  | .pushreg _ => .pushreg
  | .popreg _ => .popreg
  | .clf => .clf
  | .hlt => .hlt

end Sys2Proof
end

