-- ==== Sys2Proof/Machine/Params.lean ====
section
/-! DEFINITION. The default parameter values: the default OPCODE_MAP of 30_encoding.md R102 and the configuration
that State.reset is built with (92_eei_decisions.md D35). Every statement about the machine quantifies over the
configuration; only reset and the host's table words fix this one. -/

namespace Sys2Proof.Machine

/-- The default OPCODE_MAP (30_encoding.md R102): 0x00 to 0x18 in the table's order. Log entry 2. -/
def defaultOpcodeMap : List Byte :=
  [0x00, 0x01, 0x02, 0x03, 0x04, 0x05, 0x06, 0x07, 0x08, 0x09, 0x0A, 0x0B, 0x0C,
   0x0D, 0x0E, 0x0F, 0x10, 0x11, 0x12, 0x13, 0x14, 0x15, 0x16, 0x17, 0x18]

/-- The configuration of the spec's test vectors (92_eei_decisions.md D35), with the defaults of 00_scope.md R7 for
CALL_LINK, DIV0_MODE and MOD_OVF. DESIGN CHOICE, unsafe: the spec gives REG_COUNT, MEM_CAP and STACK_CAP a range
and no value. Log entry 1. -/
def defaultConfig : Config where
  regCount := 8
  memCap := 64
  stackCap := 16
  opcodeMap := defaultOpcodeMap
  callLink := .next
  div0Mode := .fault
  modOvf := .keep

end Sys2Proof.Machine
end

