-- ==== Sys2Proof/WellFormed.lean ====
section
/-! DEFINITION. When an instruction term is one the decoder can produce: every register field is below REG_COUNT
(10_state.md R22, 30_encoding.md R106 and R110). Immediates and addresses take every value (R115). -/

namespace Sys2Proof

/-- The register operands an instruction names, in byte order (10_state.md R21, 30_encoding.md R110). -/
def Instr.regs : Instr → List RegIndex
  | .nop => []
  | .ld rd _ => [rd]
  | .load rd _ => [rd]
  | .store rs _ => [rs]
  | .add rd rs1 rs2 => [rd, rs1, rs2]
  | .sub rd rs1 rs2 => [rd, rs1, rs2]
  | .mul rd rs1 rs2 => [rd, rs1, rs2]
  | .div rd rs1 rs2 => [rd, rs1, rs2]
  | .mod rd rs1 rs2 => [rd, rs1, rs2]
  | .inc rd => [rd]
  | .dec rd => [rd]
  | .and rd rs1 rs2 => [rd, rs1, rs2]
  | .or rd rs1 rs2 => [rd, rs1, rs2]
  | .xor rd rs1 rs2 => [rd, rs1, rs2]
  | .not rd rs => [rd, rs]
  | .cmp ra rb => [ra, rb]
  | .jmp _ => []
  | .jn _ => []
  | .jnn _ => []
  | .jz _ => []
  | .call _ => []
  | .ret => []
  | .pushreg r => [r]
  | .popreg r => [r]
  | .clf => []
  | .hlt => []

/-- Every register the instruction names exists in this configuration (10_state.md R22). -/
abbrev Instr.wellFormed (c : Config) (i : Instr) : Prop :=
  ∀ r ∈ i.regs, r.val < c.regCount

end Sys2Proof
end

