-- ==== Sys2Proof/Decode.lean ====
section
/-! DEFINITION. The formats' layouts, LEN, OPCODE_MAP, the decoder of 30_encoding.md R105 and the encoder of R118. -/

namespace Sys2Proof

open Sys2Proof.Machine (VmError defaultConfig)

/-! ### Formats and lengths -/

/-- The format of an opcode (30_encoding.md R102). -/
def Opcode.format : Opcode → Format
  | .nop | .ret | .clf | .hlt => .f0
  | .inc | .dec | .pushreg | .popreg => .f1r
  | .not | .cmp => .f2r
  | .add | .sub | .mul | .div | .mod | .and | .or | .xor => .f3r
  | .ld => .fri
  | .load | .store => .fra
  | .jmp | .jn | .jnn | .jz | .call => .fa

/-- The length of a format in bytes, opcode byte included (30_encoding.md R101). -/
def Format.length : Format → Nat
  | .f0 => 1
  | .f1r => 2
  | .f2r => 3
  | .f3r => 4
  | .fri => 6
  | .fra => 6
  | .fa => 5

/-- The byte positions of a format's register fields, ascending (30_encoding.md R110). -/
def Format.regFields : Format → List Nat
  | .f0 => []
  | .f1r => [1]
  | .f2r => [1, 2]
  | .f3r => [1, 2, 3]
  | .fri => [1]
  | .fra => [1]
  | .fa => []

/-- `LEN(op)`, a function of the opcode alone (30_encoding.md R104). -/
def Opcode.length (op : Opcode) : Nat := op.format.length

/-! ### OPCODE_MAP -/

/-- The 25 opcodes other than HLT, in the order in which `Config.opcodeMap` lists their bytes
(30_encoding.md R102). -/
def nonHaltOpcodes : List Opcode :=
  [.nop, .ld, .load, .store, .add, .sub, .mul, .div, .mod, .inc, .dec, .and, .or, .xor, .not, .cmp,
   .jmp, .jn, .jnn, .jz, .call, .ret, .pushreg, .popreg, .clf]

/-- The byte of an opcode: HLT is 0xFF in every map (30_encoding.md R103). -/
def opcodeByte (c : Config) (op : Opcode) : Byte :=
  if op = .hlt then 0xFF else c.opcodeMap.getD (nonHaltOpcodes.idxOf op) 0xFF

/-- Opcode dispatch: the opcode a byte stands for under the map, if any (30_encoding.md R107). -/
def opcodeOfByte (c : Config) (b : Byte) : Option Opcode :=
  if b = 0xFF then some .hlt else nonHaltOpcodes.find? fun op => opcodeByte c op == b

/-! ### Byte order of operands -/

/-- `LE32(b0..b3)`, the little-endian 32-bit value (00_scope.md R10). -/
def le32 (b0 b1 b2 b3 : Byte) : Word := b3 ++ b2 ++ b1 ++ b0

/-- Byte i of a 32-bit value, `v[8i+7 : 8i]`. -/
def byteAt (v : Word) (i : Nat) : Byte := v.extractLsb' (8 * i) 8

/-- The four operand bytes of a 32-bit value, little-endian (30_encoding.md R101). -/
def wordBytes (v : Word) : List Byte := [byteAt v 0, byteAt v 1, byteAt v 2, byteAt v 3]

/-- A register field is the unsigned byte (30_encoding.md R114). -/
def regOfByte (b : Byte) : RegIndex := b.toFin

/-- The byte of a register field. -/
def byteOfReg (r : RegIndex) : Byte := BitVec.ofFin r

/-! ### The decoder -/

/-- Operand extraction (30_encoding.md R106, R112 to R114): the instruction of an opcode whose byte i is `b i`. -/
def assemble (op : Opcode) (b : Nat → Byte) : Instr :=
  let r (p : Nat) : RegIndex := regOfByte (b p)
  let imm : Word := le32 (b 2) (b 3) (b 4) (b 5)
  let target : Word := le32 (b 1) (b 2) (b 3) (b 4)
  match op with
  | .nop => .nop
  | .ld => .ld (r 1) imm
  | .load => .load (r 1) imm
  | .store => .store (r 1) imm
  | .add => .add (r 1) (r 2) (r 3)
  | .sub => .sub (r 1) (r 2) (r 3)
  | .mul => .mul (r 1) (r 2) (r 3)
  | .div => .div (r 1) (r 2) (r 3)
  | .mod => .mod (r 1) (r 2) (r 3)
  | .inc => .inc (r 1)
  | .dec => .dec (r 1)
  | .and => .and (r 1) (r 2) (r 3)
  | .or => .or (r 1) (r 2) (r 3)
  | .xor => .xor (r 1) (r 2) (r 3)
  | .not => .not (r 1) (r 2)
  | .cmp => .cmp (r 1) (r 2)
  | .jmp => .jmp target
  | .jn => .jn target
  | .jnn => .jnn target
  | .jz => .jz target
  | .call => .call target
  | .ret => .ret
  | .pushreg => .pushreg (r 1)
  | .popreg => .popreg (r 1)
  | .clf => .clf
  | .hlt => .hlt

/-- The register check (30_encoding.md R110, R111): the field at the lowest byte offset that is not below
REG_COUNT, if any. -/
def badRegister (c : Config) (op : Opcode) (b : Nat → Byte) : Option Byte :=
  (op.format.regFields.map b).find? fun v => decide (c.regCount ≤ v.toNat)

/-- Decoding the slice of the program from pc to its end, with the checks in the order of 30_encoding.md R105 and
R109: empty slice, opcode, length, registers. -/
def decodeSlice (c : Config) (slice : List Byte) : Except VmError Instr :=
  match slice with
  | [] => .error .invalidInstruction
  | b0 :: _ =>
    match opcodeOfByte c b0 with
    | none => .error (.invalidOpcode b0)
    | some op =>
      if slice.length < op.length then .error .invalidInstruction
      else
        match badRegister c op (slice.getD · 0) with
        | some v => .error (.invalidRegister v.toNat)
        | none => .ok (assemble op (slice.getD · 0))

/-- `Decode(prog, pc)` (30_encoding.md R105). The slice from pc is empty exactly when pc ≥ PROG_LEN (R108). -/
def decode (c : Config) (prog : List Byte) (pc : Nat) : Except VmError Instr :=
  decodeSlice c (prog.drop pc)

/-! ### The encoder -/

/-- The operand bytes of an instruction, in stream order (30_encoding.md R101, R118). -/
def operandBytes : Instr → List Byte
  | .nop => []
  | .ld rd imm => byteOfReg rd :: wordBytes imm
  | .load rd addr => byteOfReg rd :: wordBytes addr
  | .store rs addr => byteOfReg rs :: wordBytes addr
  | .add rd rs1 rs2 => [byteOfReg rd, byteOfReg rs1, byteOfReg rs2]
  | .sub rd rs1 rs2 => [byteOfReg rd, byteOfReg rs1, byteOfReg rs2]
  | .mul rd rs1 rs2 => [byteOfReg rd, byteOfReg rs1, byteOfReg rs2]
  | .div rd rs1 rs2 => [byteOfReg rd, byteOfReg rs1, byteOfReg rs2]
  | .mod rd rs1 rs2 => [byteOfReg rd, byteOfReg rs1, byteOfReg rs2]
  | .inc rd => [byteOfReg rd]
  | .dec rd => [byteOfReg rd]
  | .and rd rs1 rs2 => [byteOfReg rd, byteOfReg rs1, byteOfReg rs2]
  | .or rd rs1 rs2 => [byteOfReg rd, byteOfReg rs1, byteOfReg rs2]
  | .xor rd rs1 rs2 => [byteOfReg rd, byteOfReg rs1, byteOfReg rs2]
  | .not rd rs => [byteOfReg rd, byteOfReg rs]
  | .cmp ra rb => [byteOfReg ra, byteOfReg rb]
  | .jmp addr => wordBytes addr
  | .jn addr => wordBytes addr
  | .jnn addr => wordBytes addr
  | .jz addr => wordBytes addr
  | .call addr => wordBytes addr
  | .ret => []
  | .pushreg r => [byteOfReg r]
  | .popreg r => [byteOfReg r]
  | .clf => []
  | .hlt => []

/-- `Encode(ins)`: the opcode byte, then the operands (30_encoding.md R118). -/
def encode (c : Config) (i : Instr) : List Byte := opcodeByte c i.opcode :: operandBytes i

/-! ### The host's table words -/

/-- The bytes of the longest instruction whose bits are the low `nbits` of `w`, byte i being bits 8i+7 to 8i
(30_encoding.md R101), the bits from `nbits` up being 0. -/
def tableBytes (nbits w : Nat) : List Byte :=
  let v := w % 2 ^ nbits
  [0, 1, 2, 3, 4, 5].map fun i => BitVec.ofNat 8 (v / 2 ^ (8 * i))

/-- The instruction the decoder reads from a word of spec/opcode_table.json, under the default configuration. -/
def decodeTableWord (nbits w : Nat) : Option Instr :=
  (decode defaultConfig (tableBytes nbits w) 0).toOption

end Sys2Proof
end

