-- ==== Sys2Proof/Machine/State.lean ====
section
/-! DEFINITION. The architectural state of the block (10_state.md, 20_memory.md), the reasons a step can stop, and
the state at construction (70_reset_and_hazards.md R254). -/

namespace Sys2Proof.Machine

/-- The flags register: four independent bits with no packed layout (10_state.md R25). `carry` is inert: no
instruction writes it (R26). -/
structure Flags where
  zero : Bool
  carry : Bool
  overflow : Bool
  negative : Bool
deriving DecidableEq, Repr

/-- The run state (10_state.md R34). Halted and Faulted are terminal but for the start of a new run. -/
inductive RunState where
  | ready
  | running
  | halted
  | faulted
deriving DecidableEq, Repr

/-- What executing a decoded instruction answers: the one pc update the sequencer applies (10_state.md R30). -/
inductive Transition where
  /-- pc <- pc + LEN(op) -/
  | advance
  /-- pc <- target, with no further advance -/
  | jumpTo (target : Word)
  /-- pc unchanged, run <- Halted -/
  | halt
deriving DecidableEq, Repr

/-- Data memory: the listed bytes, every unlisted address reading as 0 (20_memory.md R60, R74). -/
abbrev Memory := List Host.Cell

/-- The canonical form: addresses strictly rising and no listed byte 0, so that equal memories are equal lists. -/
abbrev Memory.wf (m : Memory) : Prop :=
  m.Pairwise (fun a b => a.1 < b.1) ∧ ∀ c ∈ m, c.2 ≠ 0

/-- The state of one VM instance: the tuple of 10_state.md with the program buffer of the current run, the
instance's parameters, and the model's own draw counter. -/
structure State where
  /-- The parameters, constant for the instance (00_scope.md R7). -/
  config : Config
  /-- x[0..REG_COUNT-1] (10_state.md R20). -/
  regs : List Word
  /-- F (10_state.md R25). -/
  flags : Flags
  /-- pc, a byte offset into the program buffer (10_state.md R28). -/
  pc : Word
  /-- Data memory (20_memory.md R60). -/
  mem : Memory
  /-- The stack, last element on top (20_memory.md R79). -/
  stk : List Word
  /-- The program buffer of the current run (10_state.md R40). -/
  prog : List Byte
  /-- The run state (10_state.md R34). -/
  run : RunState
  /-- The error latch (10_state.md R35). -/
  err : Option VmError
  /-- The step counter (10_state.md R36). -/
  steps : Nat
  /-- The MODEL's own: how many draws DIV0_MODE = DRAW has taken (41_arithmetic.md R154). Log entry 5. -/
  draws : Nat
deriving DecidableEq, Repr

/-- Why the model's `step` answers no next state. Each is raised by `step` alone, where the spec takes no step
(10_state.md R33, R34). All are safe: the machine itself does nothing there. The machine's own errors are
`VmError` and are next states. -/
inductive Fault where
  /-- Raised by `step` when run = Ready: no run has been started (70_reset_and_hazards.md R254). Safe. -/
  | runNotStarted
  /-- Raised by `step` when run = Halted, which is terminal (10_state.md R34). Safe. -/
  | runHalted
  /-- Raised by `step` when run = Faulted, which is terminal (10_state.md R34). Safe. -/
  | runFaulted
deriving DecidableEq, Repr

/-- Why an instruction term is given no meaning. -/
inductive Refusal where
  /-- Raised by an arm of `exec` whose instruction is not modelled. No arm raises it. Safe. -/
  | notModelled (mnemonic : String)
  /-- Raised by every meaning when the instruction term names a register that is not below REG_COUNT. No decoder
  produces such a term, so `step` never answers it (10_state.md R22). Safe. -/
  | registerOutOfRange
deriving DecidableEq, Repr

/-- Construction of an instance: 70_reset_and_hazards.md R250, R251 and R254. -/
def State.construct (c : Config) : State where
  config := c
  regs := List.replicate c.regCount 0
  flags := { zero := false, carry := false, overflow := false, negative := false }
  pc := 0
  mem := []
  stk := []
  prog := []
  run := .ready
  err := none
  steps := 0
  draws := 0

/-- The machine right after construction, under the default configuration: run is Ready and the program buffer is
empty until the host starts a run (70_reset_and_hazards.md R254, R252). -/
def State.reset : State := State.construct defaultConfig

end Sys2Proof.Machine
end

