-- ==== Sys2Proof/Machine/Ops.lean ====
section
/-! DEFINITION. The named operations: data memory and the memory bus, the stack manager, taking an error, applying a
transition, and the start of a run. -/

namespace Sys2Proof.Machine

/-! ### Data memory, byte by byte -/

/-- What an address that is not listed reads as: memory is zeroed at reset (20_memory.md R60, R74). -/
def unlistedByte : Byte := 0

/-- The byte at an address. -/
def readByte : Memory → Nat → Byte
  | [], _ => unlistedByte
  | c :: m, a => if c.1 = a then c.2 else readByte m a

/-- Writing the byte at an address, keeping the canonical form. -/
def writeByte : Memory → Nat → Byte → Memory
  | [], a, v => if v = unlistedByte then [] else [(a, v)]
  | c :: m, a, v =>
    if c.1 < a then c :: writeByte m a v
    else
      let rest := if c.1 = a then m else c :: m
      if v = unlistedByte then rest else (a, v) :: rest

/-! ### The memory bus -/

/-- The access widths of the bus (00_scope.md R8). -/
inductive AccessWidth where
  | byte
  | half
  | word
deriving DecidableEq, Repr

/-- A width in bytes: 1, 2 or 4 (00_scope.md R8). -/
def AccessWidth.bytes : AccessWidth → Nat
  | .byte => 1
  | .half => 2
  | .word => 4

/-- The two checks of every access: bounds first, on the exact sum, then alignment (20_memory.md R61, R62, R65). -/
def busCheck (c : Config) (addr : Nat) (w : AccessWidth) : Except VmError Unit :=
  if c.memCap < addr + w.bytes then .error (.memoryOutOfBounds addr w.bytes)
  else if addr % w.bytes ≠ 0 then .error (.memoryNotAligned addr w.bytes)
  else .ok ()

/-- The n-byte little-endian value at an address, zero-extended to 32 bits (20_memory.md R63, R68, R69). -/
def readLE (m : Memory) (addr : Nat) : Nat → Word
  | 0 => 0
  | n + 1 => readLE m (addr + 1) n <<< 8 ||| (readByte m addr).setWidth 32

/-- Writing the low n bytes of a value, least significant first (20_memory.md R64, R68). -/
def writeLE (m : Memory) (addr : Nat) (v : Word) : Nat → Memory
  | 0 => m
  | n + 1 => writeLE (writeByte m addr (v.setWidth 8)) (addr + 1) (v >>> 8) n

/-- `MemRead(addr, n)` (20_memory.md R63). It changes no state. -/
def memRead (s : State) (addr : Nat) (w : AccessWidth) : Except VmError Word :=
  match busCheck s.config addr w with
  | .error e => .error e
  | .ok () => .ok (readLE s.mem addr w.bytes)

/-- `MemWrite(addr, n, v)` (20_memory.md R64): a failing write changes no byte. A width below 4 stores the low bytes
of `v`. -/
def memWrite (s : State) (addr : Nat) (w : AccessWidth) (v : Word) : Except VmError State :=
  match busCheck s.config addr w with
  | .error e => .error e
  | .ok () => .ok { s with mem := writeLE s.mem addr v w.bytes }

/-- `clear()` of the memory bus: every byte becomes 0 (20_memory.md R67). -/
def memClear (s : State) : State := { s with mem := [] }

/-- `capacity()` of the memory bus (20_memory.md R67). -/
def memCapacity (s : State) : Nat := s.config.memCap

/-! ### The stack manager -/

/-- `Push(v)` (20_memory.md R80). -/
def stackPush (s : State) (v : Word) : Except VmError State :=
  if s.stk.length = s.config.stackCap then .error .stackOverflow
  else .ok { s with stk := s.stk ++ [v] }

/-- `Peek()` (20_memory.md R82). -/
def stackPeek (s : State) : Except VmError Word :=
  match s.stk.getLast? with
  | none => .error .stackUnderflow
  | some v => .ok v

/-- `Pop()` (20_memory.md R81). -/
def stackPop (s : State) : Except VmError (Word × State) :=
  match s.stk.getLast? with
  | none => .error .stackUnderflow
  | some v => .ok (v, { s with stk := s.stk.dropLast })

/-- `clear()` of the stack manager (20_memory.md R83). -/
def stackClear (s : State) : State := { s with stk := [] }

/-- `len()` (20_memory.md R83). -/
def stackLen (s : State) : Nat := s.stk.length

/-- `capacity()` of the stack manager (20_memory.md R84). -/
def stackCapacity (s : State) : Nat := s.config.stackCap

/-! ### Taking an error, and the way on from it -/

/-- TAKING AN ERROR: it is latched and the run is Faulted; nothing else changes, and pc stays at the offset of the
failing decode (60_exceptions.md R224, R226). -/
def raiseError (s : State) (e : VmError) : State := { s with err := some e, run := .faulted }

/-- There is no return from an error (60_exceptions.md R229): the way on is the start of a new run, which resets
registers, flags, pc, memory, stack, steps and err (70_reset_and_hazards.md R252). The draw counter, the model's
own, runs on, so that no draw is used twice (log entry 5). -/
def startRun (s : State) (program : List Byte) : State :=
  { State.construct s.config with prog := program, run := .running, draws := s.draws }

/-! ### The sequencer -/

/-- The transition of an instruction of length `len` applied, and the instruction counted
(10_state.md R31, R33, R36). -/
def applyTransition (len : Nat) (s : State) : Transition → State
  | .advance => { s with pc := s.pc + BitVec.ofNat 32 len, steps := s.steps + 1 }
  | .jumpTo a => { s with pc := a, steps := s.steps + 1 }
  | .halt => { s with run := .halted, steps := s.steps + 1 }

/-- What executing an instruction answers: an error, or the new state and the transition (10_state.md R30, R33). -/
abbrev Execution := Except VmError (State × Transition)

/-- The sequencer's use of that answer (10_state.md R33): an error is taken on the state before the instruction. -/
def sequence (len : Nat) (s : State) : Execution → State
  | .error e => raiseError s e
  | .ok (t, tr) => applyTransition len t tr

end Sys2Proof.Machine
end

