-- ==== Sys2Proof/Machine/Operands.lean ====
section
/-! DEFINITION. The operand forms: registers, CALL's link value, and the frame every meaning shares: the check
that its registers exist, and the sequencer. -/

namespace Sys2Proof.Machine

/-- `x[r]` (00_scope.md R11). Every register is ordinary: no alias, nothing hard-wired (10_state.md R20). -/
def readReg (s : State) (r : RegIndex) : Word := s.regs.getD r.val 0

/-- `x[r] <- v` (00_scope.md R11). -/
def writeReg (s : State) (r : RegIndex) (v : Word) : State := { s with regs := s.regs.set r.val v }

/-- The host's checked read port `get_register` (10_state.md R23). -/
def getRegister (s : State) (index : Nat) : Except VmError Word :=
  if index < s.config.regCount then .ok (s.regs.getD index 0) else .error (.invalidRegister index)

/-- The value CALL pushes (43_control.md R194): the offset after the CALL, or its own. -/
def linkValue (s : State) : Word :=
  match s.config.callLink with
  | .next => s.pc + 5
  | .self => s.pc

/-- One instruction of opcode `op` naming the registers `rs`, whose execution is `body`. Registers that do not
exist in this configuration refuse: execution never sees one (10_state.md R22). -/
def issue (op : Opcode) (rs : List RegIndex) (s : State) (body : State → Execution) :
    Host.Outcome State Fault Refusal :=
  if ∀ r ∈ rs, r.val < s.config.regCount then .next (sequence op.length s (body s))
  else .refused .registerOutOfRange

end Sys2Proof.Machine
end

