-- ==== Sys2Proof/Machine/Flags.lean ====
section
/-! DEFINITION. The overflowing operations of 00_scope.md R12, the flag-update classes of 41_arithmetic.md R151 and
the result mux of R150. -/

namespace Sys2Proof.Machine

/-! ### Overflowing operations -/

/-- Whether an exact result falls outside -2^31..2^31-1 (00_scope.md R12). -/
def wraps (e : Int) : Bool := decide (e < -2 ^ 31 ∨ 2 ^ 31 - 1 < e)

/-- The wrapped result and the wrap bit of an exact result (00_scope.md R12). -/
def wrapExact (e : Int) : Word × Bool := (bits32 e, wraps e)

/-- `ovf_add` (00_scope.md R12). -/
def ovfAdd (a b : Word) : Word × Bool := wrapExact (s32 a + s32 b)

/-- `ovf_sub` (00_scope.md R12). -/
def ovfSub (a b : Word) : Word × Bool := wrapExact (s32 a - s32 b)

/-- `ovf_mul` (00_scope.md R12). -/
def ovfMul (a b : Word) : Word × Bool := wrapExact (s32 a * s32 b)

/-- `ovf_div`, rounded toward zero, for b ≠ 0 (00_scope.md R12). Log entry 4. -/
def ovfDiv (a b : Word) : Word × Bool := wrapExact ((s32 a).tdiv (s32 b))

/-- `ovf_rem`, for b ≠ 0 (00_scope.md R12). Log entry 4. -/
def ovfRem (a b : Word) : Word × Bool := wrapExact (s32 a - s32 b * (s32 a).tdiv (s32 b))

/-! ### Flag-update classes -/

/-- "zero": all 32 bits are 0 (41_arithmetic.md R152). -/
def isZero (res : Word) : Bool := res == 0

/-- "negative": bit 31 (41_arithmetic.md R152). -/
def isNegative (res : Word) : Bool := res.msb

/-- Class ARITH: zero, negative and overflow (41_arithmetic.md R151). -/
def flagsArith (res : Word) (w : Bool) (f : Flags) : Flags :=
  { f with zero := isZero res, negative := isNegative res, overflow := w }

/-- Class LOGIC: zero and negative (41_arithmetic.md R151). -/
def flagsLogic (res : Word) (f : Flags) : Flags :=
  { f with zero := isZero res, negative := isNegative res }

/-- Class MODC: zero and negative, and overflow cleared under MOD_OVF = CLEAR (41_arithmetic.md R151). -/
def flagsMod (m : ModOvf) (res : Word) (f : Flags) : Flags :=
  match m with
  | .keep => { f with zero := isZero res, negative := isNegative res }
  | .clear => { f with zero := isZero res, negative := isNegative res, overflow := false }

/-- Class CMPC: zero (41_arithmetic.md R151). -/
def flagsCompare (a b : Word) (f : Flags) : Flags := { f with zero := a == b }

/-- Class CLR: zero, overflow and negative cleared, carry untouched (41_arithmetic.md R151, 90_conflicts.md C5). -/
def flagsClear (f : Flags) : Flags := { f with zero := false, overflow := false, negative := false }

/-- The flags register written. -/
def setFlags (s : State) (f : Flags) : State := { s with flags := f }

/-! ### The result mux -/

/-- Result and flags of class ARITH (41_arithmetic.md R150, R151). -/
def finishArith (s : State) (rd : RegIndex) (r : Word × Bool) : Execution :=
  .ok (setFlags (writeReg s rd r.1) (flagsArith r.1 r.2 s.flags), .advance)

/-- Result and flags of class LOGIC (41_arithmetic.md R150, R151). -/
def finishLogic (s : State) (rd : RegIndex) (res : Word) : Execution :=
  .ok (setFlags (writeReg s rd res) (flagsLogic res s.flags), .advance)

/-- Result and flags of class MODC (41_arithmetic.md R150, R151). -/
def finishMod (s : State) (rd : RegIndex) (res : Word) : Execution :=
  .ok (setFlags (writeReg s rd res) (flagsMod s.config.modOvf res s.flags), .advance)

/-! ### Division by zero -/

/-- A zero divisor follows DIV0_MODE (41_arithmetic.md R154): FAULT raises and writes nothing; DRAW completes with
an unconstrained result and wrap bit, taken from the free values at the draw counter, which advances. -/
def divZero (s : State) (finish : State → Word × Bool → Execution) : Execution :=
  match s.config.div0Mode with
  | .fault => .error .divisionByZero
  | .draw => finish { s with draws := s.draws + 1 } (Config.drawResult s.draws, Config.drawWrap s.draws)

end Sys2Proof.Machine
end

