-- ==== Sys2Proof/Machine/Arith.lean ====
section
/-! DEFINITION. ADD, SUB, MUL, DIV, MOD, INC and DEC (41_arithmetic.md). Every source is read from the state
before the instruction (10_state.md R24). -/

namespace Sys2Proof.Machine

/-- ADD rd, rs1, rs2 (41_arithmetic.md R160). -/
def execAdd (rd rs1 rs2 : RegIndex) (s : State) : Host.Outcome State Fault Refusal :=
  issue .add [rd, rs1, rs2] s fun s => finishArith s rd (ovfAdd (readReg s rs1) (readReg s rs2))

/-- SUB rd, rs1, rs2 (41_arithmetic.md R161). -/
def execSub (rd rs1 rs2 : RegIndex) (s : State) : Host.Outcome State Fault Refusal :=
  issue .sub [rd, rs1, rs2] s fun s => finishArith s rd (ovfSub (readReg s rs1) (readReg s rs2))

/-- MUL rd, rs1, rs2 (41_arithmetic.md R162). -/
def execMul (rd rs1 rs2 : RegIndex) (s : State) : Host.Outcome State Fault Refusal :=
  issue .mul [rd, rs1, rs2] s fun s => finishArith s rd (ovfMul (readReg s rs1) (readReg s rs2))

/-- DIV rd, rs1, rs2 (41_arithmetic.md R163, R154). -/
def execDiv (rd rs1 rs2 : RegIndex) (s : State) : Host.Outcome State Fault Refusal :=
  issue .div [rd, rs1, rs2] s fun s =>
    if s32 (readReg s rs2) = 0 then divZero s fun s r => finishArith s rd r
    else finishArith s rd (ovfDiv (readReg s rs1) (readReg s rs2))

/-- MOD rd, rs1, rs2 (41_arithmetic.md R164, R154). The wrap bit is not used. -/
def execMod (rd rs1 rs2 : RegIndex) (s : State) : Host.Outcome State Fault Refusal :=
  issue .mod [rd, rs1, rs2] s fun s =>
    if s32 (readReg s rs2) = 0 then divZero s fun s r => finishMod s rd r.1
    else finishMod s rd (ovfRem (readReg s rs1) (readReg s rs2)).1

/-- INC rd (41_arithmetic.md R165). -/
def execInc (rd : RegIndex) (s : State) : Host.Outcome State Fault Refusal :=
  issue .inc [rd] s fun s => finishArith s rd (ovfAdd (readReg s rd) (bits32 1))

/-- DEC rd (41_arithmetic.md R166). -/
def execDec (rd : RegIndex) (s : State) : Host.Outcome State Fault Refusal :=
  issue .dec [rd] s fun s => finishArith s rd (ovfSub (readReg s rd) (bits32 1))

end Sys2Proof.Machine
end

