-- ==== Sys2Proof/Machine/Control.lean ====
section
/-! DEFINITION. JMP, JN, JNN, JZ, CALL and RET (43_control.md). Targets are absolute and not checked: the next
decode decides (10_state.md R32). -/

namespace Sys2Proof.Machine

/-- JMP addr (43_control.md R190). -/
def execJmp (addr : Word) (s : State) : Host.Outcome State Fault Refusal :=
  issue .jmp [] s fun s => .ok (s, .jumpTo addr)

/-- JN addr (43_control.md R191). -/
def execJn (addr : Word) (s : State) : Host.Outcome State Fault Refusal :=
  issue .jn [] s fun s => .ok (s, if s.flags.negative then .jumpTo addr else .advance)

/-- JNN addr (43_control.md R192). -/
def execJnn (addr : Word) (s : State) : Host.Outcome State Fault Refusal :=
  issue .jnn [] s fun s => .ok (s, if !s.flags.negative then .jumpTo addr else .advance)

/-- JZ addr (43_control.md R193). -/
def execJz (addr : Word) (s : State) : Host.Outcome State Fault Refusal :=
  issue .jz [] s fun s => .ok (s, if s.flags.zero then .jumpTo addr else .advance)

/-- CALL addr (43_control.md R194). -/
def execCall (addr : Word) (s : State) : Host.Outcome State Fault Refusal :=
  issue .call [] s fun s =>
    match stackPush s (linkValue s) with
    | .error e => .error e
    | .ok t => .ok (t, .jumpTo addr)

/-- RET (43_control.md R195): the popped entry is read as unsigned (20_memory.md R87). -/
def execRet (s : State) : Host.Outcome State Fault Refusal :=
  issue .ret [] s fun s =>
    match stackPop s with
    | .error e => .error e
    | .ok (v, t) => .ok (t, .jumpTo v)

end Sys2Proof.Machine
end

