-- ==== Sys2Proof/Machine/Logic.lean ====
section
/-! DEFINITION. AND, OR, XOR, NOT and CMP (42_logical_compare.md). -/

namespace Sys2Proof.Machine

/-- AND rd, rs1, rs2 (42_logical_compare.md R180). -/
def execAnd (rd rs1 rs2 : RegIndex) (s : State) : Host.Outcome State Fault Refusal :=
  issue .and [rd, rs1, rs2] s fun s => finishLogic s rd (readReg s rs1 &&& readReg s rs2)

/-- OR rd, rs1, rs2 (42_logical_compare.md R181). -/
def execOr (rd rs1 rs2 : RegIndex) (s : State) : Host.Outcome State Fault Refusal :=
  issue .or [rd, rs1, rs2] s fun s => finishLogic s rd (readReg s rs1 ||| readReg s rs2)

/-- XOR rd, rs1, rs2 (42_logical_compare.md R182). -/
def execXor (rd rs1 rs2 : RegIndex) (s : State) : Host.Outcome State Fault Refusal :=
  issue .xor [rd, rs1, rs2] s fun s => finishLogic s rd (readReg s rs1 ^^^ readReg s rs2)

/-- NOT rd, rs (42_logical_compare.md R183). -/
def execNot (rd rs : RegIndex) (s : State) : Host.Outcome State Fault Refusal :=
  issue .not [rd, rs] s fun s => finishLogic s rd (~~~readReg s rs)

/-- CMP ra, rb: no register is written (42_logical_compare.md R184). -/
def execCmp (ra rb : RegIndex) (s : State) : Host.Outcome State Fault Refusal :=
  issue .cmp [ra, rb] s fun s =>
    .ok (setFlags s (flagsCompare (readReg s ra) (readReg s rb) s.flags), .advance)

end Sys2Proof.Machine
end

