-- ==== Sys2Proof/Machine/Move.lean ====
section
/-! DEFINITION. LD, LOAD and STORE (40_move_memory.md). None writes a flag. -/

namespace Sys2Proof.Machine

/-- LD rd, imm (40_move_memory.md R140). -/
def execLd (rd : RegIndex) (imm : Word) (s : State) : Host.Outcome State Fault Refusal :=
  issue .ld [rd] s fun s => .ok (writeReg s rd imm, .advance)

/-- LOAD rd, addr (40_move_memory.md R141). -/
def execLoad (rd : RegIndex) (addr : Word) (s : State) : Host.Outcome State Fault Refusal :=
  issue .load [rd] s fun s =>
    match memRead s (u32 addr) .word with
    | .error e => .error e
    | .ok v => .ok (writeReg s rd v, .advance)

/-- STORE rs, addr (40_move_memory.md R142). -/
def execStore (rs : RegIndex) (addr : Word) (s : State) : Host.Outcome State Fault Refusal :=
  issue .store [rs] s fun s =>
    match memWrite s (u32 addr) .word (readReg s rs) with
    | .error e => .error e
    | .ok t => .ok (t, .advance)

end Sys2Proof.Machine
end

