-- ==== Sys2Proof/Machine/StackFlags.lean ====
section
/-! DEFINITION. PUSHREG, POPREG, CLF, HLT and NOP (44_stack_flags_halt.md). -/

namespace Sys2Proof.Machine

/-- PUSHREG r (44_stack_flags_halt.md R200). -/
def execPushreg (r : RegIndex) (s : State) : Host.Outcome State Fault Refusal :=
  issue .pushreg [r] s fun s =>
    match stackPush s (readReg s r) with
    | .error e => .error e
    | .ok t => .ok (t, .advance)

/-- POPREG r (44_stack_flags_halt.md R201). -/
def execPopreg (r : RegIndex) (s : State) : Host.Outcome State Fault Refusal :=
  issue .popreg [r] s fun s =>
    match stackPop s with
    | .error e => .error e
    | .ok (v, t) => .ok (writeReg t r v, .advance)

/-- CLF (44_stack_flags_halt.md R202). -/
def execClf (s : State) : Host.Outcome State Fault Refusal :=
  issue .clf [] s fun s => .ok (setFlags s (flagsClear s.flags), .advance)

/-- HLT (44_stack_flags_halt.md R203). -/
def execHlt (s : State) : Host.Outcome State Fault Refusal :=
  issue .hlt [] s fun s => .ok (s, .halt)

/-- NOP (44_stack_flags_halt.md R204). -/
def execNop (s : State) : Host.Outcome State Fault Refusal :=
  issue .nop [] s fun s => .ok (s, .advance)

end Sys2Proof.Machine
end

