-- ==== Sys2Proof/Machine/Dispatch.lean ====
section
/-! DEFINITION. One arm per instruction, each one call of its meaning. -/

namespace Sys2Proof.Machine

def exec (i : Instr) (s : State) : Host.Outcome State Fault Refusal :=
  match i with
  | .nop => Sys2Proof.Machine.execNop s
  | .ld rd imm => Sys2Proof.Machine.execLd rd imm s
  | .load rd addr => Sys2Proof.Machine.execLoad rd addr s
  | .store rs addr => Sys2Proof.Machine.execStore rs addr s
  | .add rd rs1 rs2 => Sys2Proof.Machine.execAdd rd rs1 rs2 s
  | .sub rd rs1 rs2 => Sys2Proof.Machine.execSub rd rs1 rs2 s
  | .mul rd rs1 rs2 => Sys2Proof.Machine.execMul rd rs1 rs2 s
  | .div rd rs1 rs2 => Sys2Proof.Machine.execDiv rd rs1 rs2 s
  | .mod rd rs1 rs2 => Sys2Proof.Machine.execMod rd rs1 rs2 s
  | .inc rd => Sys2Proof.Machine.execInc rd s
  | .dec rd => Sys2Proof.Machine.execDec rd s
  | .and rd rs1 rs2 => Sys2Proof.Machine.execAnd rd rs1 rs2 s
  | .or rd rs1 rs2 => Sys2Proof.Machine.execOr rd rs1 rs2 s
  | .xor rd rs1 rs2 => Sys2Proof.Machine.execXor rd rs1 rs2 s
  | .not rd rs => Sys2Proof.Machine.execNot rd rs s
  | .cmp ra rb => Sys2Proof.Machine.execCmp ra rb s
  | .jmp addr => Sys2Proof.Machine.execJmp addr s
  | .jn addr => Sys2Proof.Machine.execJn addr s
  | .jnn addr => Sys2Proof.Machine.execJnn addr s
  | .jz addr => Sys2Proof.Machine.execJz addr s
  | .call addr => Sys2Proof.Machine.execCall addr s
  | .ret => Sys2Proof.Machine.execRet s
  | .pushreg r => Sys2Proof.Machine.execPushreg r s
  | .popreg r => Sys2Proof.Machine.execPopreg r s
  | .clf => Sys2Proof.Machine.execClf s
  | .hlt => Sys2Proof.Machine.execHlt s

end Sys2Proof.Machine
end

