-- ==== Sys2Proof/Machine/Fetch.lean ====
section
/-! DEFINITION. Fetch and decode at the current pc, and the placing of bytes at an offset of the program buffer. -/

namespace Sys2Proof.Machine

/-- One decode at the current pc, of the program buffer only (10_state.md R33, 20_memory.md R77). -/
def fetch (s : State) : Except VmError Instr := decode s.config s.prog s.pc.toNat

/-- A program buffer with `bytes` at an offset: what stood before them is kept, padded with zeros up to the
offset, and what stood after them is kept. -/
def placeBytes (prog : List Byte) (offset : Nat) (bytes : List Byte) : List Byte :=
  let before := prog.take offset
  before ++ List.replicate (offset - before.length) 0 ++ bytes ++ prog.drop (offset + bytes.length)

/-- A state whose current run is at a given instruction word of spec/opcode_table.json: the word's bytes stand at
pc, and the run is Running with no error latched. Log entry 8. -/
def placeAtPc (s : State) (bytes : List Byte) : State :=
  { s with prog := placeBytes s.prog s.pc.toNat bytes, run := .running, err := none }

end Sys2Proof.Machine
end

