-- ==== Sys2Proof/Machine/Step.lean ====
section
/-! DEFINITION. One step of the block (10_state.md R33). -/

namespace Sys2Proof.Machine

/-- One step: taken only while run = Running (10_state.md R33). A decode error is taken like any other error; a
decoded instruction is executed, and its transition applied, by its meaning. -/
def step (s : State) : Host.Outcome State Fault Refusal :=
  match s.run with
  | .ready => .fault .runNotStarted
  | .halted => .fault .runHalted
  | .faulted => .fault .runFaulted
  | .running =>
    match fetch s with
    | .error e => .next (raiseError s e)
    | .ok i => exec i s

/-- The state whose very next step fetches and runs the instruction of a word of spec/opcode_table.json: the host's
loading of a program (70_reset_and_hazards.md R252) with the word at pc. Log entry 8. -/
def State.withFetchWord (s : State) (nbits w : Nat) : State := placeAtPc s (tableBytes nbits w)

end Sys2Proof.Machine
end

