-- ==== Sys2Proof/Machine/HostPort.lean ====
section
/-! DEFINITION. What the host can do to the block between runs (20_memory.md R67, R69, R82 to R84, 10_state.md R23,
70_reset_and_hazards.md R252, 92_eei_decisions.md D33). -/

namespace Sys2Proof.Machine

/-- The host's commands. The host has no register write port (10_state.md R23) and no flag port (R25). -/
inductive HostCommand where
  /-- `run(programBytes)`, its start (70_reset_and_hazards.md R252). -/
  | run (program : List Byte)
  /-- `get_register(index)` (10_state.md R23). -/
  | getRegister (index : Nat)
  /-- `read<W>(address)` (20_memory.md R67, R69). -/
  | readMemory (address : Nat) (width : AccessWidth)
  /-- `write<W>(address, value)`, the low bytes of `value` (20_memory.md R67, R69). -/
  | writeMemory (address : Nat) (width : AccessWidth) (value : Word)
  /-- `clear()` of the memory (20_memory.md R67). -/
  | clearMemory
  /-- `capacity()` of the memory (20_memory.md R67). -/
  | memoryCapacity
  /-- `push(value)` (20_memory.md R80, 60_exceptions.md R220). -/
  | push (value : Word)
  /-- `pop()` (20_memory.md R81, 60_exceptions.md R220). -/
  | pop
  /-- `peek()` (20_memory.md R82). -/
  | peek
  /-- `clear()` of the stack (20_memory.md R83). -/
  | clearStack
  /-- `len()` (20_memory.md R83). -/
  | stackLength
  /-- `capacity()` of the stack (20_memory.md R84). -/
  | stackCapacity
deriving DecidableEq, Repr

/-- The host's replies. -/
inductive HostReply where
  | done
  | value (v : Word)
  | count (n : Nat)
  | error (e : VmError)
deriving DecidableEq, Repr

/-- A port that only reads: its reply is a value or an error, and no state changes (60_exceptions.md R223). -/
def hostRead (s : State) : Except VmError Word → State × HostReply
  | .error e => (s, .error e)
  | .ok v => (s, .value v)

/-- A port that writes: an error is returned to the host only and changes no state (60_exceptions.md R223). -/
def hostWrite (s : State) : Except VmError State → State × HostReply
  | .error e => (s, .error e)
  | .ok t => (t, .done)

/-- One host command between runs. It has no answer while run = Running (92_eei_decisions.md D33, log entry 9), and
none for a program longer than 2^32-1 bytes (D17). -/
def hostStep (s : State) (cmd : HostCommand) : Option (State × HostReply) :=
  if s.run = .running then none
  else
    match cmd with
    | .run program => if program.length < 2 ^ 32 then some (startRun s program, .done) else none
    | .getRegister index => some (hostRead s (getRegister s index))
    | .readMemory address w => some (hostRead s (memRead s address w))
    | .writeMemory address w v => some (hostWrite s (memWrite s address w v))
    | .clearMemory => some (memClear s, .done)
    | .memoryCapacity => some (s, .count (memCapacity s))
    | .push v => some (hostWrite s (stackPush s v))
    | .pop =>
      match stackPop s with
      | .error e => some (s, .error e)
      | .ok (v, t) => some (t, .value v)
    | .peek => some (hostRead s (stackPeek s))
    | .clearStack => some (stackClear s, .done)
    | .stackLength => some (s, .count (stackLen s))
    | .stackCapacity => some (s, .count (stackCapacity s))

end Sys2Proof.Machine
end

