-- ==== Sys2Proof/Machine/Driver.lean ====
section
/-! DEFINITION. The driver loop of a run, under fuel supplied by the caller (10_state.md R38,
70_reset_and_hazards.md R252), and a run's outcome (10_state.md R37). -/

namespace Sys2Proof.Machine

/-- `while run = Running: Step`, at most `fuel` times. The end of fuel is no outcome (10_state.md R38). -/
def drive : Nat → State → State
  | 0, s => s
  | fuel + 1, s =>
    match step s with
    | .next t => drive fuel t
    | .fault _ => s
    | .refused _ => s

/-- What the host receives when a run has ended: the step count, or the error (10_state.md R37). -/
def runOutcome (s : State) : Option (Except VmError Nat) :=
  match s.run, s.err with
  | .halted, _ => some (.ok s.steps)
  | .faulted, some e => some (.error e)
  | _, _ => none

/-- `run(programBytes)` under fuel: the state it ends in, if the host may start it (70_reset_and_hazards.md R252). -/
def runProgram (fuel : Nat) (s : State) (program : List Byte) : Option State :=
  match hostStep s (.run program) with
  | none => none
  | some (t, _) => some (drive fuel t)

end Sys2Proof.Machine
end

