-- ==== Sys2Proof/Safety.lean ====
section
/-! DEFINITION. What counts as a good state, and the vocabulary in which the claims speak: the spec's own flag
values, the frames of the instructions, and sequences of stack operations. -/

namespace Sys2Proof.Machine

/-! ### Good states -/

/-- The invariant of the machine. The parameters are legal (00_scope.md R7); the register file has REG_COUNT
registers (10_state.md R20); carry is false (R26); the memory list is canonical and lists only addresses below
MEM_CAP (20_memory.md R60); the stack is within its capacity (R79); the program is at most 2^32-1 bytes long
(00_scope.md R7); err holds an error in a Faulted run and in no other run state (10_state.md R35); before the first
run the program buffer is empty and steps is 0 (70_reset_and_hazards.md R254). -/
abbrev State.wf (s : State) : Prop :=
  s.config.legal ∧
  s.regs.length = s.config.regCount ∧
  s.flags.carry = false ∧
  Memory.wf s.mem ∧
  (∀ c ∈ s.mem, c.1 < s.config.memCap) ∧
  s.stk.length ≤ s.config.stackCap ∧
  s.prog.length < 2 ^ 32 ∧
  (s.err ≠ none ↔ s.run = .faulted) ∧
  (s.run = .ready → s.prog = [] ∧ s.steps = 0)

/-- The reset values that construction and the start of a run have in common (70_reset_and_hazards.md R250, R251,
R255): every register 0, every flag false, pc 0, every byte of memory 0, the stack empty, no error, no step. -/
def Cleared (s : State) : Prop :=
  s.regs.length = s.config.regCount ∧ (∀ r, readReg s r = 0) ∧
  s.flags.zero = false ∧ s.flags.carry = false ∧ s.flags.overflow = false ∧ s.flags.negative = false ∧
  s.pc = 0 ∧ (∀ a, readByte s.mem a = 0) ∧ s.stk = [] ∧ s.err = none ∧ s.steps = 0

/-! ### The spec's flag values -/

/-- Class ARITH of 41_arithmetic.md R151 on an exact result E: zero and negative from the wrapped result, negative
as `s32(res) < 0` (R152), overflow as E outside the signed range (00_scope.md R12), carry kept. -/
def arithFlags (f : Flags) (e : Int) : Flags where
  zero := decide (bits32 e = 0)
  carry := f.carry
  overflow := decide (e < -2147483648 ∨ 2147483647 < e)
  negative := decide (s32 (bits32 e) < 0)

/-- Class LOGIC of 41_arithmetic.md R151 on a result: zero and negative; overflow and carry kept. -/
def logicFlags (f : Flags) (res : Word) : Flags where
  zero := decide (res = 0)
  carry := f.carry
  overflow := f.overflow
  negative := decide (s32 res < 0)

/-- Class MODC of 41_arithmetic.md R151 on a result: zero and negative; overflow kept under KEEP and cleared under
CLEAR; carry kept. -/
def modFlags (m : ModOvf) (f : Flags) (res : Word) : Flags where
  zero := decide (res = 0)
  carry := f.carry
  overflow := f.overflow && decide (m = .keep)
  negative := decide (s32 res < 0)

/-! ### Frames -/

/-- What an instruction of length `len` that writes one register leaves: the register `rd` holds `v` and every other
register what it held, the flags are `f`, every byte of memory reads as before, and everything else is as in `s` but
for the pc, which advances by `len`, and the step count. -/
def WritesRegister (s t : State) (len : Nat) (rd : RegIndex) (v : Word) (f : Flags) : Prop :=
  readReg t rd = v ∧ (∀ r, r ≠ rd → readReg t r = readReg s r) ∧ t.flags = f ∧
  (∀ a, readByte t.mem a = readByte s.mem a) ∧
  t = { s with regs := t.regs, flags := f, pc := s.pc + BitVec.ofNat 32 len, steps := s.steps + 1 }

/-- The register an instruction writes, if any (10_state.md R21). -/
def destOf : Instr → Option RegIndex
  | .ld rd _ | .load rd _ | .inc rd | .dec rd | .popreg rd => some rd
  | .add rd _ _ | .sub rd _ _ | .mul rd _ _ | .div rd _ _ | .mod rd _ _ => some rd
  | .and rd _ _ | .or rd _ _ | .xor rd _ _ | .not rd _ => some rd
  | .store _ _ | .cmp _ _ | .pushreg _ => none
  | .jmp _ | .jn _ | .jnn _ | .jz _ | .call _ | .ret => none
  | .nop | .clf | .hlt => none

/-- The pc after an instruction that executes without error (10_state.md R31): the jump target of JMP, CALL, RET,
and of JN, JNN and JZ when their condition holds; unchanged after HLT; else pc + LEN. -/
def nextPc (s : State) (i : Instr) : Word :=
  let advanced := s.pc + BitVec.ofNat 32 i.opcode.length
  match i with
  | .jmp a | .call a => a
  | .jn a => if s.flags.negative then a else advanced
  | .jnn a => if s.flags.negative then advanced else a
  | .jz a => if s.flags.zero then a else advanced
  | .ret => s.stk.getLastD 0
  | .hlt => s.pc
  | .ld _ _ | .load _ _ | .store _ _ | .inc _ | .dec _ | .not _ _ | .cmp _ _ => advanced
  | .add _ _ _ | .sub _ _ _ | .mul _ _ _ | .div _ _ _ | .mod _ _ _ => advanced
  | .and _ _ _ | .or _ _ _ | .xor _ _ _ => advanced
  | .pushreg _ | .popreg _ | .clf | .nop => advanced

/-- The instruction is one that returns Advance on this state (10_state.md R31). -/
def Advances (s : State) : Instr → Prop
  | .jmp _ | .call _ | .ret | .hlt => False
  | .jn _ => s.flags.negative = false
  | .jnn _ => s.flags.negative = true
  | .jz _ => s.flags.zero = false
  | .ld _ _ | .load _ _ | .store _ _ | .inc _ | .dec _ | .not _ _ | .cmp _ _ => True
  | .add _ _ _ | .sub _ _ _ | .mul _ _ _ | .div _ _ _ | .mod _ _ _ => True
  | .and _ _ _ | .or _ _ _ | .xor _ _ _ => True
  | .pushreg _ | .popreg _ | .clf | .nop => True

/-! ### Sequences of stack operations -/

/-- Pushing a list of values, the first one first. -/
def pushAll (s : State) : List Word → Except VmError State
  | [] => .ok s
  | v :: vs =>
    match stackPush s v with
    | .error e => .error e
    | .ok t => pushAll t vs

/-- Popping n values: the values in the order in which they are popped, and the state they leave. -/
def popMany (s : State) : Nat → Except VmError (List Word × State)
  | 0 => .ok ([], s)
  | n + 1 =>
    match stackPop s with
    | .error e => .error e
    | .ok (v, t) =>
      match popMany t n with
      | .error e => .error e
      | .ok (vs, u) => .ok (v :: vs, u)

end Sys2Proof.Machine
end

