-- ==== Sys2Proof/Certificates/Slice0/Obligations.lean ====
section
/-! DEFINITION. The statements for the provers. Each says what a numbered rule of spec/ says, or what follows from
several of them; OBLIGATIONS.json lists them with the rules they cite. "Encoded bytes" are those of the default
OPCODE_MAP (30_encoding.md R102); every other statement holds for every configuration. -/

open Sys2Proof Sys2Proof.Machine

/-! ## Reset, runs and the step -/

/-- R254: at construction run is Ready, err none, steps 0, every other element at its value of R250 and R251, and
the program buffer empty; and so these four stay under every host command that leaves the run Ready. State.reset is
the construction of one instance; which configuration it has is the model's choice (log entry 1). -/
def Obligations.ConstructionState : Prop :=
  (∀ c : Config, let s := State.construct c
    Cleared s ∧ s.run = .ready ∧ s.err = none ∧ s.steps = 0 ∧ s.prog = [] ∧ s.config = c) ∧
  (∃ c : Config, c.legal ∧ State.reset = State.construct c) ∧
  (∀ s t cmd reply, s.run = .ready → s.prog = [] → s.steps = 0 → s.err = none →
    hostStep s cmd = some (t, reply) → t.run = .ready → t.prog = [] ∧ t.steps = 0 ∧ t.err = none)

/-- R250, R251: the values at construction and at the start of every run, from any run state that is not
Running. The configuration is unchanged. -/
def Obligations.StartOfRunClears : Prop :=
  (∀ c : Config, Cleared (State.construct c) ∧ (State.construct c).run = .ready) ∧
  (∀ (s : State) (program : List Byte), s.run ≠ .running → program.length < 2 ^ 32 →
    ∃ t, hostStep s (.run program) = some (t, .done) ∧ Cleared t ∧
      t.run = .running ∧ t.prog = program ∧ t.config = s.config)

/-- The invariant holds at reset. The values REG_COUNT, MEM_CAP and STACK_CAP of reset are the model's choice (log
entry 1), so this rests on no rule for them. -/
def Obligations.ResetSatisfiesInvariant : Prop := State.reset.wf

/-- Every step keeps the invariant, from every state that meets it. -/
def Obligations.StepKeepsInvariant : Prop :=
  ∀ s t : State, s.wf → step s = .next t → t.wf

/-- Every host command keeps the invariant. -/
def Obligations.HostCommandKeepsInvariant : Prop :=
  ∀ (s t : State) (cmd : HostCommand) (reply : HostReply),
    s.wf → hostStep s cmd = some (t, reply) → t.wf

/-- R33: while run is Running, a decode error is latched and the run is Faulted, and a decoded instruction is
well-formed and is executed by its meaning, which applies the transition and counts the step. -/
def Obligations.StepRunsTheDecodedInstruction : Prop :=
  ∀ s : State, s.run = .running →
    (∀ i, decode s.config s.prog s.pc.toNat = .ok i → i.wellFormed s.config ∧ step s = exec i s) ∧
    (∀ e, decode s.config s.prog s.pc.toNat = .error e →
      step s = .next { s with err := some e, run := .faulted })

/-- R34: no step is taken from Ready, Halted or Faulted, no step leads back to Ready, and a host command leaves the run
state unless it starts a run, which enters Running. -/
def Obligations.OnlyANewRunLeavesAnEndedRun : Prop :=
  (∀ s t : State, s.run ≠ .running → step s ≠ .next t) ∧
  (∀ s t : State, step s = .next t → t.run ≠ .ready) ∧
  (∀ (s t : State) (cmd : HostCommand) (reply : HostReply), hostStep s cmd = some (t, reply) →
    t.run = s.run ∨ (t.run = .running ∧ ∃ program, cmd = .run program))

/-- While run is Running the machine always takes a next state: it never refuses and never stops. -/
def Obligations.EveryRunningStepCompletes : Prop :=
  ∀ s : State, s.run = .running → ∃ t, step s = .next t

/-- The meaning of an instruction answers a next state whenever its registers exist. For a term that names a register
that does not exist, of which R22 says only that execution never sees one, the refusal registerOutOfRange is the
model's choice (log entry 7). -/
def Obligations.OnlyMissingRegistersAreRefused : Prop :=
  ∀ (i : Instr) (s : State),
    (i.wellFormed s.config → ∃ t, exec i s = .next t) ∧
    (¬i.wellFormed s.config → exec i s = .refused .registerOutOfRange)

/-- R224, R226: a step that faults records the error, sets run to Faulted, and changes nothing else: no register,
flag, byte of memory, stack entry, pc or step count. -/
def Obligations.FaultsArePrecise : Prop :=
  ∀ s t : State, s.run = .running → step s = .next t → t.run = .faulted →
    ∃ e, t = { s with err := some e, run := .faulted }

/-- R222 and the table of R220: which step can raise which error, and when. DivisionByZero is raised under
DIV0_MODE = FAULT only. -/
def Obligations.EachErrorHasItsSource : Prop :=
  ∀ (s t : State) (e : VmError), s.wf → step s = .next t → t.err = some e →
    let decoded := decode s.config s.prog s.pc.toNat
    match e with
    | .memoryOutOfBounds a n =>
      n = 4 ∧ s.config.memCap < a + 4 ∧
        ∃ r addr, a = addr.toNat ∧ (decoded = .ok (.load r addr) ∨ decoded = .ok (.store r addr))
    | .memoryNotAligned a n =>
      n = 4 ∧ a + 4 ≤ s.config.memCap ∧ a % 4 ≠ 0 ∧
        ∃ r addr, a = addr.toNat ∧ (decoded = .ok (.load r addr) ∨ decoded = .ok (.store r addr))
    | .invalidOpcode b => decoded = .error (.invalidOpcode b)
    | .invalidInstruction => decoded = .error .invalidInstruction
    | .invalidRegister n => decoded = .error (.invalidRegister n)
    | .divisionByZero =>
      s.config.div0Mode = .fault ∧
        ∃ rd rs1 rs2, readReg s rs2 = 0 ∧ (decoded = .ok (.div rd rs1 rs2) ∨ decoded = .ok (.mod rd rs1 rs2))
    | .stackUnderflow => s.stk = [] ∧ (decoded = .ok .ret ∨ ∃ r, decoded = .ok (.popreg r))
    | .stackOverflow =>
      s.stk.length = s.config.stackCap ∧ ((∃ a, decoded = .ok (.call a)) ∨ ∃ r, decoded = .ok (.pushreg r))

/-- R203: HLT is the byte 0xFF in every map, with LEN 1. Executing it leaves everything but run and the step count;
a step ends in Halted exactly when the decoded instruction is HLT. -/
def Obligations.HaltExactlyOnHlt : Prop :=
  (∀ c : Config, encode c .hlt = [0xFF] ∧ Opcode.length .hlt = 1) ∧
  (∀ s : State, exec .hlt s = .next { s with run := .halted, steps := s.steps + 1 }) ∧
  (∀ s t : State, s.run = .running → step s = .next t →
    (t.run = .halted ↔ decode s.config s.prog s.pc.toNat = .ok .hlt))

/-- R36: the counter counts the instructions that execute without error, HLT included, and no faulting one. -/
def Obligations.StepsCountsCompletedInstructions : Prop :=
  ∀ s t : State, s.run = .running → step s = .next t →
    t.steps = if t.run = .faulted then s.steps else s.steps + 1

/-- R37: a Halted run answers its step count, a Faulted run its one error, and a run that has not ended nothing. -/
def Obligations.OutcomeIsBinary : Prop :=
  ∀ s : State, s.wf →
    (s.run = .halted → runOutcome s = some (.ok s.steps)) ∧
    (s.run = .faulted → ∃ e, s.err = some e ∧ runOutcome s = some (.error e)) ∧
    (s.run = .ready ∨ s.run = .running → runOutcome s = none)

/-- R40, R7: a step changes neither the program buffer nor the parameters, so that no instruction changes what any later
fetch decodes (the spec's inference R77). -/
def Obligations.StepKeepsProgramAndParameters : Prop :=
  ∀ s t : State, step s = .next t →
    t.prog = s.prog ∧ t.config = s.config ∧
      ∀ pc, decode t.config t.prog pc = decode s.config s.prog pc

/-- R31: the transition an instruction's execution applies: the pc it leaves, and Halted after HLT. An instruction
that raises leaves the pc. -/
def Obligations.TransitionUpdatesPcOnce : Prop :=
  ∀ (i : Instr) (s t : State), s.err = none → exec i s = .next t →
    (t.err = none → t.pc = nextPc s i ∧ (i = .hlt → t.run = .halted)) ∧
    (t.err ≠ none → t.pc = s.pc)

/-- The spec's inference R32 (from R31 and R108): Advance never wraps the pc; a jump target is any 32-bit value, and
whatever instruction left the pc at or beyond the program's end, the next step faults at its decode. -/
def Obligations.AdvanceNeverWraps : Prop :=
  (∀ (s t : State) (i : Instr), s.wf → decode s.config s.prog s.pc.toNat = .ok i → Advances s i →
    step s = .next t → t.err = none → t.pc.toNat = s.pc.toNat + i.opcode.length) ∧
  (∀ (c : Config) (prog : List Byte) (pc : Nat), prog.length ≤ pc →
    decode c prog pc = .error .invalidInstruction) ∧
  (∀ (s : State) (a : Word), s.prog.length ≤ a.toNat →
    ∃ t, exec (.jmp a) s = .next t ∧ t.pc = a ∧ t.err = s.err) ∧
  (∀ (i : Instr) (s t : State), exec i s = .next t → t.run = .running → s.prog.length ≤ t.pc.toNat →
    step t = .next { t with err := some .invalidInstruction, run := .faulted })

/-! ## What instructions leave unchanged -/

/-- R21: an instruction writes no register but its destination, and reads none it does not name: changing an unnamed
register changes nothing else about what the instruction does. -/
def Obligations.UnnamedRegistersPlayNoPart : Prop :=
  ∀ (i : Instr) (s t : State), exec i s = .next t →
    (∀ r, destOf i ≠ some r → readReg t r = readReg s r) ∧
    (∀ r v, r ∉ i.regs → exec i (writeReg s r v) = .next (writeReg t r v))

/-- R27: which instructions leave which flag; carry is left by every instruction. -/
def Obligations.FlagsOnlyTheirInstructionsWrite : Prop :=
  ∀ (i : Instr) (s t : State), exec i s = .next t →
    (i.opcode ∉ [.add, .sub, .mul, .div, .mod, .inc, .dec, .and, .or, .xor, .not, .cmp, .clf] →
      t.flags.zero = s.flags.zero) ∧
    (i.opcode ∉ [.add, .sub, .mul, .div, .mod, .inc, .dec, .and, .or, .xor, .not, .clf] →
      t.flags.negative = s.flags.negative) ∧
    (i.opcode ∉ [.add, .sub, .mul, .div, .inc, .dec, .clf] →
      (i.opcode = .mod → s.config.modOvf = .keep) → t.flags.overflow = s.flags.overflow)

/-- The spec's inference R26 (from R250 and R151): carry is cleared at reset and no instruction writes it, so it is
false throughout every run. -/
def Obligations.CarryIsInert : Prop :=
  (∀ c : Config, (State.construct c).flags.carry = false) ∧
  (∀ (s : State) (program : List Byte), (startRun s program).flags.carry = false) ∧
  (∀ (i : Instr) (s t : State), exec i s = .next t → t.flags.carry = s.flags.carry) ∧
  (∀ (fuel : Nat) (s : State), s.flags.carry = false → (drive fuel s).flags.carry = false)

/-- R66, R79: only STORE writes data memory, and only PUSHREG, POPREG, CALL and RET change the stack. -/
def Obligations.MemoryAndStackOnlyTheirInstructionsWrite : Prop :=
  ∀ (i : Instr) (s t : State), exec i s = .next t →
    (i.opcode ≠ .store → ∀ a, readByte t.mem a = readByte s.mem a) ∧
    (i.opcode ∉ [.pushreg, .popreg, .call, .ret] → t.stk = s.stk)

/-! ## Move, load and store -/

/-- R140: LD. -/
def Obligations.LoadImmediateResult : Prop :=
  (∀ (c : Config) (rd : RegIndex) (imm : Word), c.opcodeMap = defaultOpcodeMap →
    encode c (.ld rd imm) = [0x01, .ofNat 8 rd, imm.extractLsb' 0 8, imm.extractLsb' 8 8,
      imm.extractLsb' 16 8, imm.extractLsb' 24 8]) ∧
  (∀ (s : State) (rd : RegIndex) (imm : Word), s.wf → (Instr.ld rd imm).wellFormed s.config →
    ∃ t, exec (.ld rd imm) s = .next t ∧ WritesRegister s t 6 rd imm s.flags) ∧
  (∀ (c : Config) (rd : RegIndex) (imm : Word), c.opcodeMap = defaultOpcodeMap → c.regCount ≤ rd.val →
    decode c (encode c (.ld rd imm)) 0 = .error (.invalidRegister rd.val)) ∧
  (∀ (c : Config) (bytes : List Byte), c.opcodeMap = defaultOpcodeMap → bytes.length < 5 →
    decode c (0x01 :: bytes) 0 = .error .invalidInstruction)

/-- R141: LOAD, the word read, little-endian, and its two errors. -/
def Obligations.LoadResult : Prop :=
  (∀ (c : Config) (rd : RegIndex) (addr : Word), c.opcodeMap = defaultOpcodeMap →
    encode c (.load rd addr) = [0x02, .ofNat 8 rd, addr.extractLsb' 0 8, addr.extractLsb' 8 8,
      addr.extractLsb' 16 8, addr.extractLsb' 24 8]) ∧
  (∀ (s : State) (rd : RegIndex) (addr : Word), s.wf → (Instr.load rd addr).wellFormed s.config →
    let a := addr.toNat
    let m := s.mem
    if s.config.memCap < a + 4 then
      exec (.load rd addr) s = .next { s with err := some (.memoryOutOfBounds a 4), run := .faulted }
    else if a % 4 ≠ 0 then
      exec (.load rd addr) s = .next { s with err := some (.memoryNotAligned a 4), run := .faulted }
    else
      ∃ t, exec (.load rd addr) s = .next t ∧
        WritesRegister s t 6 rd
          (readByte m (a + 3) ++ readByte m (a + 2) ++ readByte m (a + 1) ++ readByte m a) s.flags)

/-- R142: STORE, the four bytes stored, least significant first, every other byte unchanged, and its two errors. -/
def Obligations.StoreResult : Prop :=
  (∀ (c : Config) (rs : RegIndex) (addr : Word), c.opcodeMap = defaultOpcodeMap →
    encode c (.store rs addr) = [0x03, .ofNat 8 rs, addr.extractLsb' 0 8, addr.extractLsb' 8 8,
      addr.extractLsb' 16 8, addr.extractLsb' 24 8]) ∧
  (∀ (s : State) (rs : RegIndex) (addr : Word), s.wf → (Instr.store rs addr).wellFormed s.config →
    let a := addr.toNat
    if s.config.memCap < a + 4 then
      exec (.store rs addr) s = .next { s with err := some (.memoryOutOfBounds a 4), run := .faulted }
    else if a % 4 ≠ 0 then
      exec (.store rs addr) s = .next { s with err := some (.memoryNotAligned a 4), run := .faulted }
    else
      ∃ t, exec (.store rs addr) s = .next t ∧
        (∀ k, k < 4 → readByte t.mem (a + k) = (readReg s rs).extractLsb' (8 * k) 8) ∧
        (∀ b, b < a ∨ a + 4 ≤ b → readByte t.mem b = readByte s.mem b) ∧
        t = { s with mem := t.mem, pc := s.pc + 6, steps := s.steps + 1 })

/-! ## Arithmetic -/

/-- R160 to R162: ADD, SUB (rs1 minus rs2) and MUL (the low 32 bits of the signed product): the wrapped exact
result, and zero, negative and overflow. -/
def Obligations.AddSubMulResult : Prop :=
  (∀ (c : Config) (rd rs1 rs2 : RegIndex), c.opcodeMap = defaultOpcodeMap →
    encode c (.add rd rs1 rs2) = [0x04, .ofNat 8 rd, .ofNat 8 rs1, .ofNat 8 rs2] ∧
    encode c (.sub rd rs1 rs2) = [0x05, .ofNat 8 rd, .ofNat 8 rs1, .ofNat 8 rs2] ∧
    encode c (.mul rd rs1 rs2) = [0x06, .ofNat 8 rd, .ofNat 8 rs1, .ofNat 8 rs2]) ∧
  (∀ (s : State) (rd rs1 rs2 : RegIndex), s.wf → (Instr.add rd rs1 rs2).wellFormed s.config →
    let a := s32 (readReg s rs1)
    let b := s32 (readReg s rs2)
    (∃ t, exec (.add rd rs1 rs2) s = .next t ∧
      WritesRegister s t 4 rd (bits32 (a + b)) (arithFlags s.flags (a + b))) ∧
    (∃ t, exec (.sub rd rs1 rs2) s = .next t ∧
      WritesRegister s t 4 rd (bits32 (a - b)) (arithFlags s.flags (a - b))) ∧
    (∃ t, exec (.mul rd rs1 rs2) s = .next t ∧
      WritesRegister s t 4 rd (bits32 (a * b)) (arithFlags s.flags (a * b))))

/-- DIV (R163). Rounding toward zero is general knowledge by the spec's own mark (R12), log entry 4. A zero divisor
raises under FAULT; under DRAW the result and the wrap bit are unconstrained, and zero and negative follow the result
(R154). That they are Config.drawResult and Config.drawWrap at State.draws, and that the counter advances by one, is
the model's choice (log entry 5). -/
def Obligations.DivResult : Prop :=
  (∀ (c : Config) (rd rs1 rs2 : RegIndex), c.opcodeMap = defaultOpcodeMap →
    encode c (.div rd rs1 rs2) = [0x07, .ofNat 8 rd, .ofNat 8 rs1, .ofNat 8 rs2]) ∧
  (∀ (s : State) (rd rs1 rs2 : RegIndex), s.wf → (Instr.div rd rs1 rs2).wellFormed s.config →
    if readReg s rs2 ≠ 0 then
      let e := (s32 (readReg s rs1)).tdiv (s32 (readReg s rs2))
      ∃ t, exec (.div rd rs1 rs2) s = .next t ∧ WritesRegister s t 4 rd (bits32 e) (arithFlags s.flags e)
    else if s.config.div0Mode = .fault then
      exec (.div rd rs1 rs2) s = .next { s with err := some .divisionByZero, run := .faulted }
    else
      let d := Config.drawResult s.draws
      ∃ t, exec (.div rd rs1 rs2) s = .next t ∧
        WritesRegister { s with draws := s.draws + 1 } t 4 rd d
          { zero := decide (d = 0), carry := s.flags.carry, overflow := Config.drawWrap s.draws,
            negative := decide (s32 d < 0) })

/-- MOD (R164). That the remainder takes the sign of the dividend is general knowledge by the spec's own mark (R12), log
entry 4. Overflow is kept or cleared by MOD_OVF. A zero divisor raises under FAULT; under DRAW the result is
unconstrained, and the flags are written as otherwise (R154). That it is Config.drawResult at State.draws, and that the
counter advances by one, is the model's choice (log entry 5). -/
def Obligations.ModResult : Prop :=
  (∀ (c : Config) (rd rs1 rs2 : RegIndex), c.opcodeMap = defaultOpcodeMap →
    encode c (.mod rd rs1 rs2) = [0x08, .ofNat 8 rd, .ofNat 8 rs1, .ofNat 8 rs2]) ∧
  (∀ (s : State) (rd rs1 rs2 : RegIndex), s.wf → (Instr.mod rd rs1 rs2).wellFormed s.config →
    if readReg s rs2 ≠ 0 then
      let res := bits32 ((s32 (readReg s rs1)).tmod (s32 (readReg s rs2)))
      ∃ t, exec (.mod rd rs1 rs2) s = .next t ∧
        WritesRegister s t 4 rd res (modFlags s.config.modOvf s.flags res)
    else if s.config.div0Mode = .fault then
      exec (.mod rd rs1 rs2) s = .next { s with err := some .divisionByZero, run := .faulted }
    else
      let d := Config.drawResult s.draws
      ∃ t, exec (.mod rd rs1 rs2) s = .next t ∧
        WritesRegister { s with draws := s.draws + 1 } t 4 rd d (modFlags s.config.modOvf s.flags d))

/-- R165, R166: INC and DEC, in place. -/
def Obligations.IncDecResult : Prop :=
  (∀ (c : Config) (rd : RegIndex), c.opcodeMap = defaultOpcodeMap →
    encode c (.inc rd) = [0x09, .ofNat 8 rd] ∧ encode c (.dec rd) = [0x0A, .ofNat 8 rd]) ∧
  (∀ (s : State) (rd : RegIndex), s.wf → rd.val < s.config.regCount →
    let up := s32 (readReg s rd) + 1
    let down := s32 (readReg s rd) - 1
    (∃ t, exec (.inc rd) s = .next t ∧ WritesRegister s t 2 rd (bits32 up) (arithFlags s.flags up)) ∧
    (∃ t, exec (.dec rd) s = .next t ∧ WritesRegister s t 2 rd (bits32 down) (arithFlags s.flags down)))

/-- The spec's inference R13, from R12's rounding (log entry 4): a division wraps only for -2^31 by -1, whose result
is 0x80000000; a remainder never wraps, is 0 there, and is smaller than its divisor. -/
def Obligations.DivisionWrapsOnlyAtTheMinimum : Prop :=
  ∀ a b : Word, b ≠ 0 →
    ((ovfDiv a b).2 = true ↔ a = 0x80000000 ∧ b = 0xFFFFFFFF) ∧
    (ovfDiv 0x80000000 0xFFFFFFFF).1 = 0x80000000 ∧
    (ovfRem a b).2 = false ∧
    (ovfRem 0x80000000 0xFFFFFFFF).1 = 0 ∧
    (s32 (ovfRem a b).1).natAbs < (s32 b).natAbs

/-- From R12's rounding (log entry 4): quotient times divisor plus remainder gives the dividend back, in 32 bits, and
a remainder that is not 0 has the dividend's sign. -/
def Obligations.QuotientAndRemainderRebuildTheDividend : Prop :=
  ∀ a b : Word, b ≠ 0 →
    (ovfDiv a b).1 * b + (ovfRem a b).1 = a ∧
    (0 < s32 (ovfRem a b).1 → 0 < s32 a) ∧ (s32 (ovfRem a b).1 < 0 → s32 a < 0)

/-! ## Logic and compare -/

/-- R180 to R183: AND, OR, XOR and NOT, bit by bit. -/
def Obligations.LogicResult : Prop :=
  (∀ (c : Config) (rd rs1 rs2 : RegIndex), c.opcodeMap = defaultOpcodeMap →
    encode c (.and rd rs1 rs2) = [0x0B, .ofNat 8 rd, .ofNat 8 rs1, .ofNat 8 rs2] ∧
    encode c (.or rd rs1 rs2) = [0x0C, .ofNat 8 rd, .ofNat 8 rs1, .ofNat 8 rs2] ∧
    encode c (.xor rd rs1 rs2) = [0x0D, .ofNat 8 rd, .ofNat 8 rs1, .ofNat 8 rs2] ∧
    encode c (.not rd rs1) = [0x0E, .ofNat 8 rd, .ofNat 8 rs1]) ∧
  (∀ (s : State) (rd rs1 rs2 : RegIndex), s.wf → (Instr.and rd rs1 rs2).wellFormed s.config →
    let a := readReg s rs1
    let b := readReg s rs2
    (∃ t res, exec (.and rd rs1 rs2) s = .next t ∧ (∀ k, res.getLsbD k = (a.getLsbD k && b.getLsbD k)) ∧
      WritesRegister s t 4 rd res (logicFlags s.flags res)) ∧
    (∃ t res, exec (.or rd rs1 rs2) s = .next t ∧ (∀ k, res.getLsbD k = (a.getLsbD k || b.getLsbD k)) ∧
      WritesRegister s t 4 rd res (logicFlags s.flags res)) ∧
    (∃ t res, exec (.xor rd rs1 rs2) s = .next t ∧ (∀ k, res.getLsbD k = (a.getLsbD k ^^ b.getLsbD k)) ∧
      WritesRegister s t 4 rd res (logicFlags s.flags res))) ∧
  (∀ (s : State) (rd rs : RegIndex), s.wf → (Instr.not rd rs).wellFormed s.config →
    ∃ t res, exec (.not rd rs) s = .next t ∧
      (∀ k, k < 32 → res.getLsbD k = !(readReg s rs).getLsbD k) ∧
      WritesRegister s t 3 rd res (logicFlags s.flags res))

/-- R184: CMP writes zero alone, and no register. -/
def Obligations.CompareResult : Prop :=
  (∀ (c : Config) (ra rb : RegIndex), c.opcodeMap = defaultOpcodeMap →
    encode c (.cmp ra rb) = [0x0F, .ofNat 8 ra, .ofNat 8 rb]) ∧
  (∀ (s : State) (ra rb : RegIndex), (Instr.cmp ra rb).wellFormed s.config →
    ∃ t, exec (.cmp ra rb) s = .next t ∧
      (t.flags.zero = true ↔ readReg s ra = readReg s rb) ∧
      (∀ a, readByte t.mem a = readByte s.mem a) ∧
      t = { s with flags := { s.flags with zero := t.flags.zero }, pc := s.pc + 3, steps := s.steps + 1 })

/-! ## Control transfer -/

/-- R190: JMP; a target at or beyond the program's end faults at the next decode. -/
def Obligations.JumpResult : Prop :=
  (∀ (c : Config) (addr : Word), c.opcodeMap = defaultOpcodeMap →
    encode c (.jmp addr) = [0x10, addr.extractLsb' 0 8, addr.extractLsb' 8 8, addr.extractLsb' 16 8,
      addr.extractLsb' 24 8]) ∧
  (∀ (s : State) (addr : Word), ∃ t, exec (.jmp addr) s = .next t ∧
    t = { s with pc := addr, steps := s.steps + 1 } ∧
    (s.run = .running → s.prog.length ≤ addr.toNat →
      step t = .next { t with err := some .invalidInstruction, run := .faulted }))

/-- R191 to R193: JN, JNN and JZ, taken and not taken. -/
def Obligations.ConditionalJumpResult : Prop :=
  (∀ (c : Config) (addr : Word), c.opcodeMap = defaultOpcodeMap →
    let operand := [addr.extractLsb' 0 8, addr.extractLsb' 8 8, addr.extractLsb' 16 8, addr.extractLsb' 24 8]
    encode c (.jn addr) = 0x11 :: operand ∧ encode c (.jnn addr) = 0x12 :: operand ∧
    encode c (.jz addr) = 0x13 :: operand) ∧
  (∀ (s : State) (addr : Word),
    let taken := { s with pc := addr, steps := s.steps + 1 }
    let passed := { s with pc := s.pc + 5, steps := s.steps + 1 }
    exec (.jn addr) s = .next (if s.flags.negative = true then taken else passed) ∧
    exec (.jnn addr) s = .next (if s.flags.negative = false then taken else passed) ∧
    exec (.jz addr) s = .next (if s.flags.zero = true then taken else passed))

/-- R194: CALL pushes pc + 5 under NEXT and its own pc under SELF, and jumps; on a full stack it raises. The sum
pc + 5 of a decoded CALL fits in 32 bits. -/
def Obligations.CallResult : Prop :=
  (∀ (c : Config) (addr : Word), c.opcodeMap = defaultOpcodeMap →
    encode c (.call addr) = [0x14, addr.extractLsb' 0 8, addr.extractLsb' 8 8, addr.extractLsb' 16 8,
      addr.extractLsb' 24 8]) ∧
  (∀ (s : State) (addr : Word),
    if s.stk.length = s.config.stackCap then
      exec (.call addr) s = .next { s with err := some .stackOverflow, run := .faulted }
    else
      exec (.call addr) s = .next
        { s with
          stk := s.stk ++ [if s.config.callLink = .next then s.pc + 5 else s.pc]
          pc := addr
          steps := s.steps + 1 }) ∧
  (∀ (s : State) (addr : Word), s.wf → decode s.config s.prog s.pc.toNat = .ok (.call addr) →
    s.pc.toNat + 5 ≤ s.prog.length ∧ (s.pc + 5).toNat = s.pc.toNat + 5)

/-- R195: RET pops the pc; on an empty stack it raises. -/
def Obligations.ReturnResult : Prop :=
  (∀ c : Config, c.opcodeMap = defaultOpcodeMap → encode c .ret = [0x15]) ∧
  (∀ (s : State), s.stk = [] →
    exec .ret s = .next { s with err := some .stackUnderflow, run := .faulted }) ∧
  (∀ (s : State) (below : List Word) (v : Word), s.stk = below ++ [v] →
    exec .ret s = .next { s with stk := below, pc := v, steps := s.steps + 1 })

/-- CALL and then RET come back, with the stack as it was: under NEXT to the instruction after the CALL, under SELF
to the CALL itself. -/
def Obligations.ReturnComesBackAfterTheCall : Prop :=
  ∀ (s : State) (addr : Word), s.stk.length < s.config.stackCap →
    ∃ t, exec (.call addr) s = .next t ∧ t.pc = addr ∧
      (s.config.callLink = .next → exec .ret t = .next { s with pc := s.pc + 5, steps := s.steps + 2 }) ∧
      (s.config.callLink = .self → exec .ret t = .next { s with steps := s.steps + 2 })

/-! ## Stack, flags and NOP -/

/-- R200, R201: PUSHREG and POPREG, with their errors. -/
def Obligations.PushPopRegisterResult : Prop :=
  (∀ (c : Config) (r : RegIndex), c.opcodeMap = defaultOpcodeMap →
    encode c (.pushreg r) = [0x16, .ofNat 8 r] ∧ encode c (.popreg r) = [0x17, .ofNat 8 r]) ∧
  (∀ (s : State) (r : RegIndex), (Instr.pushreg r).wellFormed s.config →
    if s.stk.length = s.config.stackCap then
      exec (.pushreg r) s = .next { s with err := some .stackOverflow, run := .faulted }
    else
      exec (.pushreg r) s = .next
        { s with stk := s.stk ++ [readReg s r], pc := s.pc + 2, steps := s.steps + 1 }) ∧
  (∀ (s : State) (r : RegIndex), (Instr.popreg r).wellFormed s.config → s.stk = [] →
    exec (.popreg r) s = .next { s with err := some .stackUnderflow, run := .faulted }) ∧
  (∀ (s : State) (r : RegIndex) (below : List Word) (v : Word), s.wf → (Instr.popreg r).wellFormed s.config →
    s.stk = below ++ [v] →
    ∃ t, exec (.popreg r) s = .next t ∧ WritesRegister { s with stk := below } t 2 r v s.flags)

/-- The spec's inference R86 (from R79, R194, R195): data and return addresses share one stack: RET jumps to a pushed
register, and POPREG pops a return address as data. -/
def Obligations.DataAndReturnAddressesShareTheStack : Prop :=
  ∀ (s : State) (r : RegIndex), s.wf → r.val < s.config.regCount → s.stk.length < s.config.stackCap →
    (∃ t u, exec (.pushreg r) s = .next t ∧ exec .ret t = .next u ∧ u.pc.toNat = (readReg s r).toNat ∧
      u.stk = s.stk) ∧
    (∀ addr, ∃ t u, exec (.call addr) s = .next t ∧ exec (.popreg r) t = .next u ∧
      readReg u r = linkValue s ∧ u.stk = s.stk)

/-- R85: the stack laws. -/
def Obligations.StackLaws : Prop :=
  ∀ (s : State) (vs : List Word), s.stk = [] → vs.length = s.config.stackCap →
    ∃ t u, pushAll s vs = .ok t ∧ (∀ v, stackPush t v = .error .stackOverflow) ∧
      popMany t vs.length = .ok (vs.reverse, u) ∧ u = s ∧ stackPop u = .error .stackUnderflow

/-- R202: CLF clears zero, overflow and negative, and leaves carry. -/
def Obligations.ClearFlagsResult : Prop :=
  (∀ c : Config, c.opcodeMap = defaultOpcodeMap → encode c .clf = [0x18]) ∧
  (∀ s : State, exec .clf s = .next
    { s with
      flags := { zero := false, carry := s.flags.carry, overflow := false, negative := false }
      pc := s.pc + 1
      steps := s.steps + 1 }) ∧
  (∀ s t : State, s.wf → exec .clf s = .next t →
    t.flags = { zero := false, carry := false, overflow := false, negative := false })

/-- R204: NOP only advances. -/
def Obligations.NopResult : Prop :=
  (∀ c : Config, c.opcodeMap = defaultOpcodeMap → encode c .nop = [0x00]) ∧
  (∀ s : State, exec .nop s = .next { s with pc := s.pc + 1, steps := s.steps + 1 })

/-! ## The memory bus -/

/-- R63: MemRead: bounds first, then alignment, then the n bytes little-endian; R69: zero-extended. -/
def Obligations.BusRead : Prop :=
  ∀ (s : State) (addr : Nat) (w : AccessWidth),
    if s.config.memCap < addr + w.bytes then memRead s addr w = .error (.memoryOutOfBounds addr w.bytes)
    else if addr % w.bytes ≠ 0 then memRead s addr w = .error (.memoryNotAligned addr w.bytes)
    else
      ∃ v, memRead s addr w = .ok v ∧
        (∀ k, k < w.bytes → v.extractLsb' (8 * k) 8 = readByte s.mem (addr + k)) ∧
        v.toNat < 2 ^ (8 * w.bytes)

/-- R64: MemWrite: bounds first, then alignment; the n bytes written little-endian, and no other byte. A failing write
answers no state. -/
def Obligations.BusWrite : Prop :=
  ∀ (s : State) (addr : Nat) (w : AccessWidth) (v : Word), s.wf →
    if s.config.memCap < addr + w.bytes then memWrite s addr w v = .error (.memoryOutOfBounds addr w.bytes)
    else if addr % w.bytes ≠ 0 then memWrite s addr w v = .error (.memoryNotAligned addr w.bytes)
    else
      ∃ t, memWrite s addr w v = .ok t ∧
        (∀ k, k < w.bytes → readByte t.mem (addr + k) = v.extractLsb' (8 * k) 8) ∧
        (∀ b, b < addr ∨ addr + w.bytes ≤ b → readByte t.mem b = readByte s.mem b) ∧
        t = { s with mem := t.mem }

/-- R70: the write-then-read law and the error law. -/
def Obligations.WriteThenReadReturnsTheValue : Prop :=
  ∀ (s : State) (addr : Nat) (w : AccessWidth) (v : Word), s.wf →
    (addr + w.bytes ≤ s.config.memCap → addr % w.bytes = 0 → v.toNat < 2 ^ (8 * w.bytes) →
      ∃ t, memWrite s addr w v = .ok t ∧ memRead t addr w = .ok v) ∧
    (s.config.memCap < addr + w.bytes → addr % w.bytes = 0 →
      memRead s addr w = .error (.memoryOutOfBounds addr w.bytes) ∧
      memWrite s addr w v = .error (.memoryOutOfBounds addr w.bytes)) ∧
    (addr + w.bytes ≤ s.config.memCap → addr % w.bytes ≠ 0 →
      memRead s addr w = .error (.memoryNotAligned addr w.bytes) ∧
      memWrite s addr w v = .error (.memoryNotAligned addr w.bytes))

/-- The spec's inference R68 (from R63 and R64): a 4-byte write seen through 1-byte and 2-byte reads. -/
def Obligations.MixedWidthsSeeTheSameBytes : Prop :=
  ∀ (s t : State) (addr : Nat) (v : Word), s.wf → memWrite s addr .word v = .ok t →
    (∀ i, i < 4 → memRead t (addr + i) .byte = .ok ((v.extractLsb' (8 * i) 8).setWidth 32)) ∧
    memRead t addr .half = .ok ((v.extractLsb' 0 16).setWidth 32) ∧
    memRead t (addr + 2) .half = .ok ((v.extractLsb' 16 16).setWidth 32)

/-! ## The host's ports -/

/-- R23: get_register; and no host command but the start of a run changes a register. -/
def Obligations.GetRegisterPort : Prop :=
  (∀ (s : State) (index : Nat), s.wf → s.run ≠ .running →
    (index < s.config.regCount →
      ∃ v, s.regs[index]? = some v ∧ hostStep s (.getRegister index) = some (s, .value v)) ∧
    (s.config.regCount ≤ index →
      hostStep s (.getRegister index) = some (s, .error (.invalidRegister index)))) ∧
  (∀ (s t : State) (cmd : HostCommand) (reply : HostReply), (∀ program, cmd ≠ .run program) →
    hostStep s cmd = some (t, reply) → t.regs = s.regs)

/-- R223: an error of a host port changes no state. -/
def Obligations.HostErrorsChangeNothing : Prop :=
  ∀ (s t : State) (cmd : HostCommand) (e : VmError), hostStep s cmd = some (t, .error e) → t = s

/-- R67, R69: the host's memory operations outside a run: the same checked read and write as the instructions', clear,
which cannot fail, and capacity. That during a run no host command at all has an answer, the start of a run among them,
is the model's choice (log entry 9): R69 says it of memory alone, and D33 of the ports. -/
def Obligations.HostMemoryPorts : Prop :=
  (∀ (s : State) (cmd : HostCommand), s.run = .running → hostStep s cmd = none) ∧
  (∀ (s : State), s.run ≠ .running →
    (∃ t, hostStep s .clearMemory = some (t, .done) ∧ (∀ a, readByte t.mem a = 0) ∧
      t = { s with mem := t.mem }) ∧
    hostStep s .memoryCapacity = some (s, .count s.config.memCap) ∧
    (∀ addr w v, memRead s addr w = .ok v → hostStep s (.readMemory addr w) = some (s, .value v)) ∧
    (∀ addr w v t, memWrite s addr w v = .ok t → hostStep s (.writeMemory addr w v) = some (t, .done)) ∧
    (∀ addr w e, memRead s addr w = .error e → hostStep s (.readMemory addr w) = some (s, .error e)) ∧
    (∀ addr w v e, memWrite s addr w v = .error e → hostStep s (.writeMemory addr w v) = some (s, .error e)))

/-- R82, R83, R84: peek, clear, len and capacity of the stack manager. -/
def Obligations.HostStackPorts : Prop :=
  ∀ s : State, s.run ≠ .running →
    (s.stk = [] → hostStep s .peek = some (s, .error .stackUnderflow)) ∧
    (∀ below v, s.stk = below ++ [v] → hostStep s .peek = some (s, .value v)) ∧
    hostStep s .clearStack = some ({ s with stk := [] }, .done) ∧
    hostStep s .stackLength = some (s, .count s.stk.length) ∧
    hostStep s .stackCapacity = some (s, .count s.config.stackCap)

/-! ## Encoding -/

/-- R118: the round-trip law: the encoded bytes of every instruction whose registers exist, anywhere in a program,
decode to the instruction, under every legal OPCODE_MAP. -/
def Obligations.DecodeOfEncode : Prop :=
  ∀ (c : Config) (i : Instr) (before after : List Byte), c.legal → i.wellFormed c →
    decode c (before ++ encode c i ++ after) before.length = .ok i

/-- The other direction: what decodes is well-formed and is encoded by exactly the bytes decoded, LEN of them. -/
def Obligations.DecodedBytesAreTheEncoding : Prop :=
  ∀ (c : Config) (prog : List Byte) (pc : Nat) (i : Instr), c.legal → decode c prog pc = .ok i →
    i.wellFormed c ∧ pc + i.opcode.length ≤ prog.length ∧
      (prog.drop pc).take i.opcode.length = encode c i

/-- The spec's inference R115 (from R101, R112 and R113): no two distinct instructions share an encoding, nor is one's
a beginning of another's. -/
def Obligations.EncodingIsInjective : Prop :=
  ∀ (c : Config) (i j : Instr) (more : List Byte), c.legal → encode c i ++ more = encode c j → i = j

/-- R103: every legal OPCODE_MAP is a bijection between the opcodes other than HLT and the bytes 0x00 to 0x18, and
HLT is 0xFF; the default map is the table of R102. -/
def Obligations.OpcodeMapIsABijection : Prop :=
  (∀ c : Config, c.opcodeMap = defaultOpcodeMap →
    [Opcode.nop, .ld, .load, .store, .add, .sub, .mul, .div, .mod, .inc, .dec, .and, .or, .xor, .not, .cmp, .jmp,
      .jn, .jnn, .jz, .call, .ret, .pushreg, .popreg, .clf].map (opcodeByte c) =
    [0x00, 0x01, 0x02, 0x03, 0x04, 0x05, 0x06, 0x07, 0x08, 0x09, 0x0A, 0x0B, 0x0C, 0x0D, 0x0E, 0x0F, 0x10,
      0x11, 0x12, 0x13, 0x14, 0x15, 0x16, 0x17, 0x18]) ∧
  ∀ c : Config, c.legal →
    opcodeByte c .hlt = 0xFF ∧
    (∀ op, op ≠ .hlt → (opcodeByte c op).toNat ≤ 0x18) ∧
    (∀ op, opcodeOfByte c (opcodeByte c op) = some op) ∧
    (∀ b op, opcodeOfByte c b = some op → opcodeByte c op = b) ∧
    (∀ b : Byte, b.toNat ≤ 0x18 → ∃ op, op ≠ .hlt ∧ opcodeOfByte c b = some op)

/-- R104: the encoded lengths, which are what the encoder writes and the decoder consumes. -/
def Obligations.EncodedLengths : Prop :=
  ([Opcode.nop, .ret, .clf, .hlt].all fun op => op.length == 1) = true ∧
  ([Opcode.inc, .dec, .pushreg, .popreg].all fun op => op.length == 2) = true ∧
  ([Opcode.not, .cmp].all fun op => op.length == 3) = true ∧
  ([Opcode.add, .sub, .mul, .div, .mod, .and, .or, .xor].all fun op => op.length == 4) = true ∧
  ([Opcode.jmp, .jn, .jnn, .jz, .call].all fun op => op.length == 5) = true ∧
  ([Opcode.ld, .load, .store].all fun op => op.length == 6) = true ∧
  (∀ (c : Config) (i : Instr), (encode c i).length = i.opcode.length) ∧
  (∀ (c : Config) (i : Instr) (n : Nat), c.legal → n < i.opcode.length →
    decode c ((encode c i).take n) 0 = .error .invalidInstruction)

/-- R107: under the default map each of the 230 bytes 0x19 to 0xFE decodes to InvalidOpcode, whatever follows it;
under any map so does every byte the map does not hold. -/
def Obligations.UnassignedBytesAreInvalidOpcodes : Prop :=
  (∀ (c : Config) (b : Byte) (rest : List Byte), c.opcodeMap = defaultOpcodeMap → 0x19 ≤ b.toNat →
    b.toNat ≤ 0xFE → decode c (b :: rest) 0 = .error (.invalidOpcode b)) ∧
  (∀ (c : Config) (b : Byte) (before rest : List Byte), c.legal → b ≠ 0xFF → b ∉ c.opcodeMap →
    decode c (before ++ b :: rest) before.length = .error (.invalidOpcode b))

/-- R108 to R111: the decoder's checks in their order, each with its error: empty slice, opcode, length, and the
register field at the lowest byte offset. -/
def Obligations.DecoderChecksInOrder : Prop :=
  (Format.regFields .f1r = [1] ∧ Format.regFields .fri = [1] ∧ Format.regFields .fra = [1] ∧
    Format.regFields .f2r = [1, 2] ∧ Format.regFields .f3r = [1, 2, 3] ∧
    Format.regFields .f0 = [] ∧ Format.regFields .fa = []) ∧
  (∀ (c : Config) (prog : List Byte) (pc : Nat),
    (prog.length ≤ pc → decode c prog pc = .error .invalidInstruction) ∧
    (∀ b0, prog[pc]? = some b0 → opcodeOfByte c b0 = none → decode c prog pc = .error (.invalidOpcode b0)) ∧
    (∀ b0 op, prog[pc]? = some b0 → opcodeOfByte c b0 = some op →
      (prog.length < pc + op.length → decode c prog pc = .error .invalidInstruction) ∧
      (pc + op.length ≤ prog.length →
        (∀ p ∈ op.format.regFields,
          (∀ q ∈ op.format.regFields, q < p → (prog.getD (pc + q) 0).toNat < c.regCount) →
          c.regCount ≤ (prog.getD (pc + p) 0).toNat →
          decode c prog pc = .error (.invalidRegister (prog.getD (pc + p) 0).toNat)) ∧
        ((∀ p ∈ op.format.regFields, (prog.getD (pc + p) 0).toNat < c.regCount) →
          ∃ i, decode c prog pc = .ok i ∧ i.opcode = op ∧ i.wellFormed c))))

/-- Words written out from the spec's encodings and vectors (95_test_vectors.md 2.1, 40_move_memory.md) decode to the
instructions they stand for, under the configuration of the vectors. -/
def Obligations.SampleWordsDecode : Prop :=
  decode defaultConfig [0x01, 0x03, 0xFF, 0xFF, 0xFF, 0xFF] 0 = .ok (.ld 3 0xFFFFFFFF) ∧
  decode defaultConfig [0x03, 0x05, 0x20, 0x00, 0x00, 0x00] 0 = .ok (.store 5 32) ∧
  decode defaultConfig [0x04, 0x07, 0x07, 0x07] 0 = .ok (.add 7 7 7) ∧
  decode defaultConfig [0x0E, 0x00, 0x01] 0 = .ok (.not 0 1) ∧
  decode defaultConfig [0x10, 0x78, 0x56, 0x34, 0x12] 0 = .ok (.jmp 0x12345678) ∧
  decode defaultConfig [0x00, 0x00, 0x15] 2 = .ok .ret ∧
  decode defaultConfig [0x16, 0x03] 0 = .ok (.pushreg 3) ∧
  decode defaultConfig [0xFF] 0 = .ok .hlt
end

