-- ==== Sys2Proof/Laws/Decode.lean ====
section
/-! SUPPORT. The small lemmas of the decoder and the encoder: operand bytes put together and taken apart, and the
lengths. -/

namespace Sys2Proof

/-! ### Operand bytes -/

/-- The bits of a value put together from four bytes. -/
theorem getLsbD_le32 (b0 b1 b2 b3 : Byte) (i : Nat) :
    (le32 b0 b1 b2 b3).getLsbD i =
      if i < 8 then b0.getLsbD i else if i < 16 then b1.getLsbD (i - 8)
      else if i < 24 then b2.getLsbD (i - 16) else b3.getLsbD (i - 24) := by
  refine (BitVec.getLsbD_append (x := b3 ++ b2 ++ b1) (y := b0)).trans ?_
  simp only [BitVec.getLsbD_append, Nat.sub_sub]
  by_cases h1 : i < 8
  · simp [h1]
  · by_cases h2 : i < 16
    · simp [h1, h2, show i - 8 < 8 by omega]
    · by_cases h3 : i < 24
      · simp [h1, h2, h3, show ¬i - 8 < 8 by omega, show i - 16 < 8 by omega]
      · simp [h1, h2, h3, show ¬i - 8 < 8 by omega, show ¬i - 16 < 8 by omega]

/-- The bits of a byte of a value. -/
theorem getLsbD_byteAt (v : Word) (k i : Nat) :
    (byteAt v k).getLsbD i = (decide (i < 8) && v.getLsbD (8 * k + i)) := by
  simp [byteAt]

/-- The bytes of a value, put together again, are the value. -/
@[simp] theorem le32_byteAt (v : Word) : le32 (byteAt v 0) (byteAt v 1) (byteAt v 2) (byteAt v 3) = v := by
  apply BitVec.eq_of_getLsbD_eq
  intro i hi
  simp only [getLsbD_le32, getLsbD_byteAt]
  by_cases h1 : i < 8
  · simp [h1]
  · by_cases h2 : i < 16
    · simp [h1, h2, show i - 8 < 8 by omega, show 8 + (i - 8) = i by omega]
    · by_cases h3 : i < 24
      · simp [h1, h2, h3, show i - 16 < 8 by omega, show 16 + (i - 16) = i by omega]
      · simp [h1, h2, h3, show i - 24 < 8 by omega, show 24 + (i - 24) = i by omega]

/-- The bytes of a value put together from four bytes are those bytes. -/
theorem wordBytes_le32 (b0 b1 b2 b3 : Byte) : wordBytes (le32 b0 b1 b2 b3) = [b0, b1, b2, b3] := by
  simp only [wordBytes, List.cons.injEq, and_true]
  refine ⟨?_, ?_, ?_, ?_⟩ <;> apply BitVec.eq_of_getLsbD_eq <;> intro i hi <;>
    simp only [getLsbD_byteAt, getLsbD_le32]
  · simp [hi]
  · simp [hi, show 8 + i < 16 by omega]
  · simp [hi, show ¬16 + i < 8 by omega, show 16 + i < 24 by omega]
  · simp [hi, show ¬24 + i < 8 by omega, show ¬24 + i < 16 by omega]

@[simp] theorem regOfByte_byteOfReg (r : RegIndex) : regOfByte (byteOfReg r) = r := rfl

@[simp] theorem byteOfReg_regOfByte (b : Byte) : byteOfReg (regOfByte b) = b := rfl

@[simp] theorem byteOfReg_toNat (r : RegIndex) : (byteOfReg r).toNat = r.val := rfl

/-- The byte of a register field is its index as 8 bits. -/
theorem byteOfReg_eq_ofNat (r : RegIndex) : byteOfReg r = BitVec.ofNat 8 r.val :=
  BitVec.eq_of_toNat_eq (by simp)

@[simp] theorem wordBytes_length (v : Word) : (wordBytes v).length = 4 := rfl

/-! ### OPCODE_MAP -/

@[simp] theorem opcodeByte_hlt (c : Config) : opcodeByte c .hlt = 0xFF := rfl

@[simp] theorem opcodeOfByte_halt (c : Config) : opcodeOfByte c 0xFF = some .hlt := rfl

/-- Every opcode but HLT has a place in the map. -/
theorem idxOf_nonHaltOpcodes_lt {op : Opcode} (h : op ≠ .hlt) : nonHaltOpcodes.idxOf op < 25 := by
  cases op <;> first | decide | exact absurd rfl h

/-- The byte of an opcode other than HLT is its entry of the map. -/
theorem opcodeByte_of_ne_hlt {c : Config} {op : Opcode} (hc : c.legal) (h : op ≠ .hlt) :
    opcodeByte c op = c.opcodeMap[nonHaltOpcodes.idxOf op]'(by
      have := idxOf_nonHaltOpcodes_lt h
      have := hc.2.2.2.1
      omega) := by
  have h1 := idxOf_nonHaltOpcodes_lt h
  have h2 := hc.2.2.2.1
  simp [opcodeByte, h, List.getElem?_eq_getElem (show nonHaltOpcodes.idxOf op < c.opcodeMap.length by omega)]

/-! ### Lengths and slices -/

/-- Decoding depends on the slice from pc alone (30_encoding.md R105). -/
theorem decode_append (c : Config) (before slice : List Byte) :
    decode c (before ++ slice) before.length = decodeSlice c slice := by
  simp [decode]

/-- The decoder on a slice whose first byte is an opcode. -/
theorem decodeSlice_cons {c : Config} {b0 : Byte} {rest : List Byte} {op : Opcode}
    (h : opcodeOfByte c b0 = some op) :
    decodeSlice c (b0 :: rest) =
      if (b0 :: rest).length < op.length then .error .invalidInstruction
      else
        match badRegister c op ((b0 :: rest).getD · 0) with
        | some v => .error (.invalidRegister v.toNat)
        | none => .ok (assemble op ((b0 :: rest).getD · 0)) := by
  unfold decodeSlice
  simp only [h]
  all_goals rfl

/-- The decoder on a slice whose first byte is no opcode (30_encoding.md R107). -/
theorem decodeSlice_of_none {c : Config} {b0 : Byte} {rest : List Byte} (h : opcodeOfByte c b0 = none) :
    decodeSlice c (b0 :: rest) = .error (.invalidOpcode b0) := by
  simp [decodeSlice, h]

@[simp] theorem decodeSlice_nil (c : Config) : decodeSlice c [] = .error .invalidInstruction := rfl

end Sys2Proof
end

