-- ==== Sys2Proof/Laws/State.lean ====
section
/-! SUPPORT. The small lemmas of State: one for each field and each named update, so that no proof unfolds an
update again. -/

namespace Sys2Proof.Machine

/-! ### writeReg -/

@[simp] theorem writeReg_config (s : State) (r : RegIndex) (v : Word) :
    (writeReg s r v).config = s.config := rfl

@[simp] theorem writeReg_regs (s : State) (r : RegIndex) (v : Word) :
    (writeReg s r v).regs = s.regs.set r.val v := rfl

@[simp] theorem writeReg_flags (s : State) (r : RegIndex) (v : Word) :
    (writeReg s r v).flags = s.flags := rfl

@[simp] theorem writeReg_pc (s : State) (r : RegIndex) (v : Word) :
    (writeReg s r v).pc = s.pc := rfl

@[simp] theorem writeReg_mem (s : State) (r : RegIndex) (v : Word) :
    (writeReg s r v).mem = s.mem := rfl

@[simp] theorem writeReg_stk (s : State) (r : RegIndex) (v : Word) :
    (writeReg s r v).stk = s.stk := rfl

@[simp] theorem writeReg_prog (s : State) (r : RegIndex) (v : Word) :
    (writeReg s r v).prog = s.prog := rfl

@[simp] theorem writeReg_run (s : State) (r : RegIndex) (v : Word) :
    (writeReg s r v).run = s.run := rfl

@[simp] theorem writeReg_err (s : State) (r : RegIndex) (v : Word) :
    (writeReg s r v).err = s.err := rfl

@[simp] theorem writeReg_steps (s : State) (r : RegIndex) (v : Word) :
    (writeReg s r v).steps = s.steps := rfl

@[simp] theorem writeReg_draws (s : State) (r : RegIndex) (v : Word) :
    (writeReg s r v).draws = s.draws := rfl

/-! ### setFlags -/

@[simp] theorem setFlags_config (s : State) (f : Flags) :
    (setFlags s f).config = s.config := rfl

@[simp] theorem setFlags_regs (s : State) (f : Flags) :
    (setFlags s f).regs = s.regs := rfl

@[simp] theorem setFlags_flags (s : State) (f : Flags) :
    (setFlags s f).flags = f := rfl

@[simp] theorem setFlags_pc (s : State) (f : Flags) :
    (setFlags s f).pc = s.pc := rfl

@[simp] theorem setFlags_mem (s : State) (f : Flags) :
    (setFlags s f).mem = s.mem := rfl

@[simp] theorem setFlags_stk (s : State) (f : Flags) :
    (setFlags s f).stk = s.stk := rfl

@[simp] theorem setFlags_prog (s : State) (f : Flags) :
    (setFlags s f).prog = s.prog := rfl

@[simp] theorem setFlags_run (s : State) (f : Flags) :
    (setFlags s f).run = s.run := rfl

@[simp] theorem setFlags_err (s : State) (f : Flags) :
    (setFlags s f).err = s.err := rfl

@[simp] theorem setFlags_steps (s : State) (f : Flags) :
    (setFlags s f).steps = s.steps := rfl

@[simp] theorem setFlags_draws (s : State) (f : Flags) :
    (setFlags s f).draws = s.draws := rfl

/-! ### raiseError -/

@[simp] theorem raiseError_config (s : State) (e : VmError) :
    (raiseError s e).config = s.config := rfl

@[simp] theorem raiseError_regs (s : State) (e : VmError) :
    (raiseError s e).regs = s.regs := rfl

@[simp] theorem raiseError_flags (s : State) (e : VmError) :
    (raiseError s e).flags = s.flags := rfl

@[simp] theorem raiseError_pc (s : State) (e : VmError) :
    (raiseError s e).pc = s.pc := rfl

@[simp] theorem raiseError_mem (s : State) (e : VmError) :
    (raiseError s e).mem = s.mem := rfl

@[simp] theorem raiseError_stk (s : State) (e : VmError) :
    (raiseError s e).stk = s.stk := rfl

@[simp] theorem raiseError_prog (s : State) (e : VmError) :
    (raiseError s e).prog = s.prog := rfl

@[simp] theorem raiseError_run (s : State) (e : VmError) :
    (raiseError s e).run = .faulted := rfl

@[simp] theorem raiseError_err (s : State) (e : VmError) :
    (raiseError s e).err = some e := rfl

@[simp] theorem raiseError_steps (s : State) (e : VmError) :
    (raiseError s e).steps = s.steps := rfl

@[simp] theorem raiseError_draws (s : State) (e : VmError) :
    (raiseError s e).draws = s.draws := rfl

/-! ### applyTransition, Advance -/

@[simp] theorem applyTransition_advance_config (n : Nat) (s : State) :
    (applyTransition n s .advance).config = s.config := rfl

@[simp] theorem applyTransition_advance_regs (n : Nat) (s : State) :
    (applyTransition n s .advance).regs = s.regs := rfl

@[simp] theorem applyTransition_advance_flags (n : Nat) (s : State) :
    (applyTransition n s .advance).flags = s.flags := rfl

@[simp] theorem applyTransition_advance_pc (n : Nat) (s : State) :
    (applyTransition n s .advance).pc = s.pc + BitVec.ofNat 32 n := rfl

@[simp] theorem applyTransition_advance_mem (n : Nat) (s : State) :
    (applyTransition n s .advance).mem = s.mem := rfl

@[simp] theorem applyTransition_advance_stk (n : Nat) (s : State) :
    (applyTransition n s .advance).stk = s.stk := rfl

@[simp] theorem applyTransition_advance_prog (n : Nat) (s : State) :
    (applyTransition n s .advance).prog = s.prog := rfl

@[simp] theorem applyTransition_advance_run (n : Nat) (s : State) :
    (applyTransition n s .advance).run = s.run := rfl

@[simp] theorem applyTransition_advance_err (n : Nat) (s : State) :
    (applyTransition n s .advance).err = s.err := rfl

@[simp] theorem applyTransition_advance_steps (n : Nat) (s : State) :
    (applyTransition n s .advance).steps = s.steps + 1 := rfl

@[simp] theorem applyTransition_advance_draws (n : Nat) (s : State) :
    (applyTransition n s .advance).draws = s.draws := rfl

/-! ### applyTransition, JumpTo -/

@[simp] theorem applyTransition_jumpTo_config (n : Nat) (s : State) (a : Word) :
    (applyTransition n s (.jumpTo a)).config = s.config := rfl

@[simp] theorem applyTransition_jumpTo_regs (n : Nat) (s : State) (a : Word) :
    (applyTransition n s (.jumpTo a)).regs = s.regs := rfl

@[simp] theorem applyTransition_jumpTo_flags (n : Nat) (s : State) (a : Word) :
    (applyTransition n s (.jumpTo a)).flags = s.flags := rfl

@[simp] theorem applyTransition_jumpTo_pc (n : Nat) (s : State) (a : Word) :
    (applyTransition n s (.jumpTo a)).pc = a := rfl

@[simp] theorem applyTransition_jumpTo_mem (n : Nat) (s : State) (a : Word) :
    (applyTransition n s (.jumpTo a)).mem = s.mem := rfl

@[simp] theorem applyTransition_jumpTo_stk (n : Nat) (s : State) (a : Word) :
    (applyTransition n s (.jumpTo a)).stk = s.stk := rfl

@[simp] theorem applyTransition_jumpTo_prog (n : Nat) (s : State) (a : Word) :
    (applyTransition n s (.jumpTo a)).prog = s.prog := rfl

@[simp] theorem applyTransition_jumpTo_run (n : Nat) (s : State) (a : Word) :
    (applyTransition n s (.jumpTo a)).run = s.run := rfl

@[simp] theorem applyTransition_jumpTo_err (n : Nat) (s : State) (a : Word) :
    (applyTransition n s (.jumpTo a)).err = s.err := rfl

@[simp] theorem applyTransition_jumpTo_steps (n : Nat) (s : State) (a : Word) :
    (applyTransition n s (.jumpTo a)).steps = s.steps + 1 := rfl

@[simp] theorem applyTransition_jumpTo_draws (n : Nat) (s : State) (a : Word) :
    (applyTransition n s (.jumpTo a)).draws = s.draws := rfl

/-! ### applyTransition, Halt -/

@[simp] theorem applyTransition_halt_config (n : Nat) (s : State) :
    (applyTransition n s .halt).config = s.config := rfl

@[simp] theorem applyTransition_halt_regs (n : Nat) (s : State) :
    (applyTransition n s .halt).regs = s.regs := rfl

@[simp] theorem applyTransition_halt_flags (n : Nat) (s : State) :
    (applyTransition n s .halt).flags = s.flags := rfl

@[simp] theorem applyTransition_halt_pc (n : Nat) (s : State) :
    (applyTransition n s .halt).pc = s.pc := rfl

@[simp] theorem applyTransition_halt_mem (n : Nat) (s : State) :
    (applyTransition n s .halt).mem = s.mem := rfl

@[simp] theorem applyTransition_halt_stk (n : Nat) (s : State) :
    (applyTransition n s .halt).stk = s.stk := rfl

@[simp] theorem applyTransition_halt_prog (n : Nat) (s : State) :
    (applyTransition n s .halt).prog = s.prog := rfl

@[simp] theorem applyTransition_halt_run (n : Nat) (s : State) :
    (applyTransition n s .halt).run = .halted := rfl

@[simp] theorem applyTransition_halt_err (n : Nat) (s : State) :
    (applyTransition n s .halt).err = s.err := rfl

@[simp] theorem applyTransition_halt_steps (n : Nat) (s : State) :
    (applyTransition n s .halt).steps = s.steps + 1 := rfl

@[simp] theorem applyTransition_halt_draws (n : Nat) (s : State) :
    (applyTransition n s .halt).draws = s.draws := rfl

/-! ### startRun -/

@[simp] theorem startRun_config (s : State) (p : List Byte) :
    (startRun s p).config = s.config := rfl

@[simp] theorem startRun_regs (s : State) (p : List Byte) :
    (startRun s p).regs = List.replicate s.config.regCount 0 := rfl

@[simp] theorem startRun_flags (s : State) (p : List Byte) :
    (startRun s p).flags = ⟨false, false, false, false⟩ := rfl

@[simp] theorem startRun_pc (s : State) (p : List Byte) :
    (startRun s p).pc = 0 := rfl

@[simp] theorem startRun_mem (s : State) (p : List Byte) :
    (startRun s p).mem = [] := rfl

@[simp] theorem startRun_stk (s : State) (p : List Byte) :
    (startRun s p).stk = [] := rfl

@[simp] theorem startRun_prog (s : State) (p : List Byte) :
    (startRun s p).prog = p := rfl

@[simp] theorem startRun_run (s : State) (p : List Byte) :
    (startRun s p).run = .running := rfl

@[simp] theorem startRun_err (s : State) (p : List Byte) :
    (startRun s p).err = none := rfl

@[simp] theorem startRun_steps (s : State) (p : List Byte) :
    (startRun s p).steps = 0 := rfl

@[simp] theorem startRun_draws (s : State) (p : List Byte) :
    (startRun s p).draws = s.draws := rfl

/-! ### memClear -/

@[simp] theorem memClear_config (s : State) :
    (memClear s).config = s.config := rfl

@[simp] theorem memClear_regs (s : State) :
    (memClear s).regs = s.regs := rfl

@[simp] theorem memClear_flags (s : State) :
    (memClear s).flags = s.flags := rfl

@[simp] theorem memClear_pc (s : State) :
    (memClear s).pc = s.pc := rfl

@[simp] theorem memClear_mem (s : State) :
    (memClear s).mem = [] := rfl

@[simp] theorem memClear_stk (s : State) :
    (memClear s).stk = s.stk := rfl

@[simp] theorem memClear_prog (s : State) :
    (memClear s).prog = s.prog := rfl

@[simp] theorem memClear_run (s : State) :
    (memClear s).run = s.run := rfl

@[simp] theorem memClear_err (s : State) :
    (memClear s).err = s.err := rfl

@[simp] theorem memClear_steps (s : State) :
    (memClear s).steps = s.steps := rfl

@[simp] theorem memClear_draws (s : State) :
    (memClear s).draws = s.draws := rfl

/-! ### stackClear -/

@[simp] theorem stackClear_config (s : State) :
    (stackClear s).config = s.config := rfl

@[simp] theorem stackClear_regs (s : State) :
    (stackClear s).regs = s.regs := rfl

@[simp] theorem stackClear_flags (s : State) :
    (stackClear s).flags = s.flags := rfl

@[simp] theorem stackClear_pc (s : State) :
    (stackClear s).pc = s.pc := rfl

@[simp] theorem stackClear_mem (s : State) :
    (stackClear s).mem = s.mem := rfl

@[simp] theorem stackClear_stk (s : State) :
    (stackClear s).stk = [] := rfl

@[simp] theorem stackClear_prog (s : State) :
    (stackClear s).prog = s.prog := rfl

@[simp] theorem stackClear_run (s : State) :
    (stackClear s).run = s.run := rfl

@[simp] theorem stackClear_err (s : State) :
    (stackClear s).err = s.err := rfl

@[simp] theorem stackClear_steps (s : State) :
    (stackClear s).steps = s.steps := rfl

@[simp] theorem stackClear_draws (s : State) :
    (stackClear s).draws = s.draws := rfl

/-! ### Any transition -/

@[simp] theorem applyTransition_config (n : Nat) (s : State) (tr : Transition) :
    (applyTransition n s tr).config = s.config := by cases tr <;> rfl

@[simp] theorem applyTransition_regs (n : Nat) (s : State) (tr : Transition) :
    (applyTransition n s tr).regs = s.regs := by cases tr <;> rfl

@[simp] theorem applyTransition_flags (n : Nat) (s : State) (tr : Transition) :
    (applyTransition n s tr).flags = s.flags := by cases tr <;> rfl

@[simp] theorem applyTransition_mem (n : Nat) (s : State) (tr : Transition) :
    (applyTransition n s tr).mem = s.mem := by cases tr <;> rfl

@[simp] theorem applyTransition_stk (n : Nat) (s : State) (tr : Transition) :
    (applyTransition n s tr).stk = s.stk := by cases tr <;> rfl

@[simp] theorem applyTransition_prog (n : Nat) (s : State) (tr : Transition) :
    (applyTransition n s tr).prog = s.prog := by cases tr <;> rfl

@[simp] theorem applyTransition_err (n : Nat) (s : State) (tr : Transition) :
    (applyTransition n s tr).err = s.err := by cases tr <;> rfl

@[simp] theorem applyTransition_draws (n : Nat) (s : State) (tr : Transition) :
    (applyTransition n s tr).draws = s.draws := by cases tr <;> rfl

@[simp] theorem applyTransition_steps (n : Nat) (s : State) (tr : Transition) :
    (applyTransition n s tr).steps = s.steps + 1 := by cases tr <;> rfl

/-- Only Halt changes the run state (10_state.md R31). -/
theorem applyTransition_run (n : Nat) (s : State) (tr : Transition) :
    (applyTransition n s tr).run = if tr = .halt then .halted else s.run := by cases tr <;> rfl

end Sys2Proof.Machine
end

