-- ==== Sys2Proof/Laws/Memory.lean ====
section
/-! SUPPORT. What the memory operations do: reading after a write, the frame of a write, and the canonical form,
which every operation keeps. -/

namespace Sys2Proof.Machine

/-! ### Reading -/

@[simp] theorem readByte_nil (a : Nat) : readByte [] a = unlistedByte := rfl

theorem readByte_cons (c : Host.Cell) (m : Memory) (a : Nat) :
    readByte (c :: m) a = if c.1 = a then c.2 else readByte m a := rfl

/-- An address below every listed one is not listed. -/
theorem readByte_of_lt_all {m : Memory} {a : Nat} (h : ∀ c ∈ m, a < c.1) : readByte m a = unlistedByte := by
  induction m with
  | nil => rfl
  | cons c m ih =>
    have hc : c.1 ≠ a := (h c (by simp)).ne'
    rw [readByte_cons, if_neg hc]
    exact ih fun d hd => h d (by simp [hd])

/-! ### One byte written -/

theorem writeByte_nil (a : Nat) (v : Byte) :
    writeByte [] a v = if v = unlistedByte then [] else [(a, v)] := rfl

theorem writeByte_cons (c : Host.Cell) (m : Memory) (a : Nat) (v : Byte) :
    writeByte (c :: m) a v =
      if c.1 < a then c :: writeByte m a v
      else if v = unlistedByte then (if c.1 = a then m else c :: m)
      else (a, v) :: (if c.1 = a then m else c :: m) := rfl

/-- A write leaves every other address alone. -/
theorem readByte_writeByte_of_ne {m : Memory} {a b : Nat} (v : Byte) (hab : b ≠ a) :
    readByte (writeByte m a v) b = readByte m b := by
  induction m with
  | nil => rw [writeByte_nil]; split <;> simp [readByte_cons, Ne.symm hab]
  | cons c m ih =>
    rw [writeByte_cons]
    split
    · simp [readByte_cons, ih]
    · by_cases hc : c.1 = a
      · have hb : ¬ c.1 = b := fun h => hab (h.symm.trans hc)
        split <;> simp [readByte_cons, hc, Ne.symm hab]
      · split <;> simp [readByte_cons, Ne.symm hab]

/-- In canonical memory a read after a write to the same address gives the byte written. -/
theorem readByte_writeByte_self {m : Memory} (hm : m.wf) (a : Nat) (v : Byte) :
    readByte (writeByte m a v) a = v := by
  induction m with
  | nil => rw [writeByte_nil]; split <;> simp_all [readByte_cons]
  | cons c m ih =>
    obtain ⟨hs, hn⟩ := hm
    have htail : Memory.wf m := ⟨(List.pairwise_cons.1 hs).2, fun d hd => hn d (by simp [hd])⟩
    have hhead := (List.pairwise_cons.1 hs).1
    rw [writeByte_cons]
    split
    · rename_i hlt
      rw [readByte_cons, if_neg (by omega)]
      exact ih htail
    · rename_i hge
      split
      · rename_i hv
        subst hv
        apply readByte_of_lt_all
        split
        · rename_i heq
          intro d hd
          exact heq ▸ hhead d hd
        · rename_i hne
          intro d hd
          rcases List.mem_cons.1 hd with rfl | hd
          · omega
          · have := hhead d hd
            omega
      · simp [readByte_cons]

/-- Every cell listed after a write was listed before it or is the one written. -/
theorem mem_writeByte {m : Memory} {a : Nat} {v : Byte} {d : Host.Cell} (hd : d ∈ writeByte m a v) :
    d ∈ m ∨ d = (a, v) := by
  induction m with
  | nil => rw [writeByte_nil] at hd; split at hd <;> simp_all
  | cons c m ih =>
    rw [writeByte_cons] at hd
    split at hd
    · rcases List.mem_cons.1 hd with rfl | hd
      · simp
      · rcases ih hd with h | h <;> simp [h]
    · split at hd <;> split at hd <;> simp_all <;> tauto

/-- A write keeps the canonical form. -/
theorem writeByte_wf {m : Memory} (hm : m.wf) (a : Nat) (v : Byte) : (writeByte m a v).wf := by
  induction m with
  | nil => rw [writeByte_nil]; split <;> simp_all [Memory.wf, unlistedByte]
  | cons c m ih =>
    obtain ⟨hs, hn⟩ := hm
    have htail : Memory.wf m := ⟨(List.pairwise_cons.1 hs).2, fun d hd => hn d (by simp [hd])⟩
    have hhead := (List.pairwise_cons.1 hs).1
    obtain ⟨hs', hn'⟩ := ih htail
    rw [writeByte_cons]
    split
    · rename_i hlt
      refine ⟨List.pairwise_cons.2 ⟨fun d hd => ?_, hs'⟩, fun d hd => ?_⟩
      · rcases mem_writeByte hd with h | rfl
        · exact hhead d h
        · exact hlt
      · rcases List.mem_cons.1 hd with rfl | hd
        · exact hn d (by simp)
        · exact hn' d hd
    · rename_i hge
      have hrest : Memory.wf (if c.1 = a then m else c :: m) := by
        split
        · exact htail
        · exact ⟨hs, hn⟩
      split
      · exact hrest
      · rename_i hv
        refine ⟨List.pairwise_cons.2 ⟨fun d hd => ?_, hrest.1⟩, fun d hd => ?_⟩
        · split at hd
          · rename_i heq
            exact heq ▸ hhead d hd
          · rename_i hne
            rcases List.mem_cons.1 hd with rfl | hd
            · show a < d.1
              omega
            · have := hhead d hd
              show a < d.1
              omega
        · rcases List.mem_cons.1 hd with rfl | hd
          · exact hv
          · exact hrest.2 d hd

/-! ### n bytes written -/

theorem writeLE_wf (n : Nat) : ∀ {m : Memory}, m.wf → ∀ (a : Nat) (v : Word), (writeLE m a v n).wf := by
  induction n with
  | zero => intro m hm a v; exact hm
  | succ n ih => intro m hm a v; exact ih (writeByte_wf hm a _) (a + 1) _

/-- A write of n bytes at `a` leaves every address outside `a .. a+n-1` alone. -/
theorem readByte_writeLE_outside (n : Nat) : ∀ (m : Memory) (a : Nat) (v : Word) {b : Nat},
    b < a ∨ a + n ≤ b → readByte (writeLE m a v n) b = readByte m b := by
  induction n with
  | zero => intros; rfl
  | succ n ih =>
    intro m a v b hb
    show readByte (writeLE (writeByte m a _) (a + 1) _ n) b = _
    rw [ih _ _ _ (by omega), readByte_writeByte_of_ne _ (by omega)]

/-- A write of n bytes at `a` stores byte k of the value at `a + k`. -/
theorem readByte_writeLE_inside (n : Nat) : ∀ {m : Memory}, m.wf → ∀ (a : Nat) (v : Word) {k : Nat}, k < n →
    readByte (writeLE m a v n) (a + k) = v.extractLsb' (8 * k) 8 := by
  induction n with
  | zero => intro m hm a v k hk; omega
  | succ n ih =>
    intro m hm a v k hk
    show readByte (writeLE (writeByte m a (v.setWidth 8)) (a + 1) (v >>> 8) n) (a + k) = _
    cases k with
    | zero =>
      rw [readByte_writeLE_outside _ _ _ _ (by omega), Nat.add_zero, readByte_writeByte_self hm]
      ext i hi
      simp
    | succ k =>
      rw [show a + (k + 1) = a + 1 + k by omega, ih (writeByte_wf hm a _) _ _ (by omega)]
      ext i hi
      simp
      congr 1
      omega

/-- Every cell listed after a write of n bytes at `a` was listed before or lies in `a .. a+n-1`. -/
theorem mem_writeLE (n : Nat) : ∀ {m : Memory} {a : Nat} {v : Word} {d : Host.Cell}, d ∈ writeLE m a v n →
    d ∈ m ∨ (a ≤ d.1 ∧ d.1 < a + n) := by
  induction n with
  | zero => intro m a v d hd; exact .inl hd
  | succ n ih =>
    intro m a v d hd
    rcases ih hd with h | ⟨h1, h2⟩
    · rcases mem_writeByte h with h | rfl
      · exact .inl h
      · exact .inr ⟨le_rfl, by show a < a + (n + 1); omega⟩
    · exact .inr ⟨by omega, by omega⟩

/-! ### The memory bus -/

/-- What a read can do (20_memory.md R63). -/
theorem memRead_cases {s : State} {addr : Nat} {w : AccessWidth} {x : Except VmError Word}
    (h : memRead s addr w = x) :
    (s.config.memCap < addr + w.bytes ∧ x = .error (.memoryOutOfBounds addr w.bytes)) ∨
    (addr + w.bytes ≤ s.config.memCap ∧ addr % w.bytes ≠ 0 ∧ x = .error (.memoryNotAligned addr w.bytes)) ∨
    (addr + w.bytes ≤ s.config.memCap ∧ addr % w.bytes = 0 ∧ x = .ok (readLE s.mem addr w.bytes)) := by
  subst h
  unfold memRead busCheck
  by_cases h1 : s.config.memCap < addr + w.bytes
  · simp [h1]
  · by_cases h2 : addr % w.bytes = 0
    · simp [h1, h2]; omega
    · simp [h1, h2]; omega

/-- What a write can do (20_memory.md R64). -/
theorem memWrite_cases {s : State} {addr : Nat} {w : AccessWidth} {v : Word} {x : Except VmError State}
    (h : memWrite s addr w v = x) :
    (s.config.memCap < addr + w.bytes ∧ x = .error (.memoryOutOfBounds addr w.bytes)) ∨
    (addr + w.bytes ≤ s.config.memCap ∧ addr % w.bytes ≠ 0 ∧ x = .error (.memoryNotAligned addr w.bytes)) ∨
    (addr + w.bytes ≤ s.config.memCap ∧ addr % w.bytes = 0 ∧
      x = .ok { s with mem := writeLE s.mem addr v w.bytes }) := by
  subst h
  unfold memWrite busCheck
  by_cases h1 : s.config.memCap < addr + w.bytes
  · simp [h1]
  · by_cases h2 : addr % w.bytes = 0
    · simp [h1, h2]; omega
    · simp [h1, h2]; omega

/-- A write that succeeds keeps the canonical form of memory. -/
theorem memWrite_wf {s t : State} {addr : Nat} {w : AccessWidth} {v : Word} (hm : s.mem.wf)
    (h : memWrite s addr w v = .ok t) : t.mem.wf := by
  rcases memWrite_cases h with ⟨-, h⟩ | ⟨-, -, h⟩ | ⟨-, -, h⟩
  · cases h
  · cases h
  · cases h; exact writeLE_wf _ hm _ _

/-- Clearing the memory leaves it canonical. -/
theorem memClear_wf (s : State) : (memClear s).mem.wf := by simp [Memory.wf]

/-- Reset memory, and the memory a run starts with, is canonical. -/
theorem construct_mem_wf (c : Config) : (State.construct c).mem.wf := by simp [State.construct, Memory.wf]

theorem reset_mem_wf : State.reset.mem.wf := construct_mem_wf _

theorem startRun_mem_wf (s : State) (p : List Byte) : (startRun s p).mem.wf := by simp [Memory.wf]

end Sys2Proof.Machine
end

