-- ==== Sys2Proof/Laws/Ops.lean ====
section
/-! SUPPORT. What each shared operation can do: registers, the stack manager, the frame of a meaning, and, for every
instruction at once, the shape of the state it leaves. -/

namespace Sys2Proof.Machine

/-! ### Registers -/

/-- Reading the register just written, where it exists. -/
theorem readReg_writeReg_self {s : State} {r : RegIndex} (h : r.val < s.regs.length) (v : Word) :
    readReg (writeReg s r v) r = v := by
  simp [readReg, h]

/-- A write leaves every other register alone. -/
theorem readReg_writeReg_of_ne {s : State} {r q : RegIndex} (v : Word) (h : q ≠ r) :
    readReg (writeReg s r v) q = readReg s q := by
  have : r.val ≠ q.val := fun e => h (Fin.ext e.symm)
  simp [readReg, List.getElem?_set_ne this]

/-- A register is the file's entry; only the file matters. -/
theorem readReg_congr {s t : State} (h : t.regs = s.regs) (r : RegIndex) : readReg t r = readReg s r := by
  simp [readReg, h]

/-- What the host's register port can do (10_state.md R23). -/
theorem getRegister_cases {s : State} {n : Nat} {x : Except VmError Word} (h : getRegister s n = x) :
    (n < s.config.regCount ∧ x = .ok (s.regs.getD n 0)) ∨
    (s.config.regCount ≤ n ∧ x = .error (.invalidRegister n)) := by
  subst h
  unfold getRegister
  by_cases hn : n < s.config.regCount
  · exact .inl ⟨hn, if_pos hn⟩
  · exact .inr ⟨by omega, if_neg hn⟩

/-! ### The stack manager -/

/-- What a push can do (20_memory.md R80). -/
theorem stackPush_cases {s : State} {v : Word} {x : Except VmError State} (h : stackPush s v = x) :
    (s.stk.length = s.config.stackCap ∧ x = .error .stackOverflow) ∨
    (s.stk.length ≠ s.config.stackCap ∧ x = .ok { s with stk := s.stk ++ [v] }) := by
  subst h
  unfold stackPush
  by_cases hn : s.stk.length = s.config.stackCap
  · exact .inl ⟨hn, if_pos hn⟩
  · exact .inr ⟨hn, if_neg hn⟩

/-- What a pop can do (20_memory.md R81). -/
theorem stackPop_cases {s : State} {x : Except VmError (Word × State)} (h : stackPop s = x) :
    (s.stk = [] ∧ x = .error .stackUnderflow) ∨
    (∃ below v, s.stk = below ++ [v] ∧ x = .ok (v, { s with stk := below })) := by
  subst h
  unfold stackPop
  rcases List.eq_nil_or_concat s.stk with hs | ⟨below, v, hs⟩
  · exact .inl ⟨hs, by simp [hs]⟩
  · exact .inr ⟨below, v, by simpa using hs, by simp [hs]⟩

/-- What a peek can do (20_memory.md R82). -/
theorem stackPeek_cases {s : State} {x : Except VmError Word} (h : stackPeek s = x) :
    (s.stk = [] ∧ x = .error .stackUnderflow) ∨ (∃ below v, s.stk = below ++ [v] ∧ x = .ok v) := by
  subst h
  unfold stackPeek
  rcases List.eq_nil_or_concat s.stk with hs | ⟨below, v, hs⟩
  · exact .inl ⟨hs, by simp [hs]⟩
  · exact .inr ⟨below, v, by simpa using hs, by simp [hs]⟩

/-! ### The frame of a meaning -/

@[simp] theorem sequence_error (n : Nat) (s : State) (e : VmError) :
    sequence n s (.error e) = raiseError s e := rfl

@[simp] theorem sequence_ok (n : Nat) (s t : State) (tr : Transition) :
    sequence n s (.ok (t, tr)) = applyTransition n t tr := rfl

/-- When a meaning answers a next state, and which. -/
theorem issue_next_iff {op : Opcode} {rs : List RegIndex} {s t : State} {body : State → Execution} :
    issue op rs s body = .next t ↔
      (∀ r ∈ rs, r.val < s.config.regCount) ∧ t = sequence op.length s (body s) := by
  unfold issue
  split
  · rename_i h
    constructor
    · intro e
      cases e
      exact ⟨h, rfl⟩
    · rintro ⟨-, rfl⟩
      rfl
  · rename_i h
    constructor
    · intro e
      cases e
    · exact fun e => absurd e.1 h

/-- A meaning whose registers exist completes. -/
theorem issue_of_regs {op : Opcode} {rs : List RegIndex} {s : State} (body : State → Execution)
    (h : ∀ r ∈ rs, r.val < s.config.regCount) :
    issue op rs s body = .next (sequence op.length s (body s)) := if_pos h

/-- A meaning one of whose registers does not exist refuses. -/
theorem issue_of_not_regs {op : Opcode} {rs : List RegIndex} {s : State} (body : State → Execution)
    (h : ¬∀ r ∈ rs, r.val < s.config.regCount) :
    issue op rs s body = .refused .registerOutOfRange := if_neg h

/-! ### Every instruction at once -/

/-- What execution without error does to the state before the transition is applied: only registers, flags, memory,
stack and draw counter can differ, the file keeps its size, and the transition is Halt for HLT alone. -/
structure Executes (i : Instr) (s u : State) (tr : Transition) : Prop where
  /-- Everything else is as it was. -/
  frame : u = { s with regs := u.regs, flags := u.flags, mem := u.mem, stk := u.stk, draws := u.draws }
  /-- The register file keeps its size. -/
  regs_length : u.regs.length = s.regs.length
  /-- Only HLT returns Halt (10_state.md R31). -/
  halt_iff : tr = .halt ↔ i = .hlt

/-- What a state can look like after an execution answered by `sequence`. -/
theorem Executes.sequence_cases {i : Instr} {s : State} {x : Execution}
    (h : ∀ u tr, x = .ok (u, tr) → Executes i s u tr) :
    (∃ e, sequence i.opcode.length s x = raiseError s e) ∨
    (∃ u tr, sequence i.opcode.length s x = applyTransition i.opcode.length u tr ∧ Executes i s u tr) := by
  match x with
  | .error e => exact .inl ⟨e, rfl⟩
  | .ok (u, tr) => exact .inr ⟨u, tr, rfl, h u tr rfl⟩

/-- The same for one meaning, from what its body answers. -/
theorem exec_cases_of_issue {i : Instr} {s t : State} {body : State → Execution}
    (h : issue i.opcode i.regs s body = .next t)
    (hx : ∀ u tr, body s = .ok (u, tr) → Executes i s u tr) :
    i.wellFormed s.config ∧
      ((∃ e, t = raiseError s e) ∨
       (∃ u tr, t = applyTransition i.opcode.length u tr ∧ Executes i s u tr)) := by
  obtain ⟨hr, rfl⟩ := issue_next_iff.1 h
  exact ⟨hr, Executes.sequence_cases hx⟩

/-- What an instruction can do: its registers exist, and it either raises an error on the state as it was, or
executes and has its transition applied. -/
theorem exec_next_cases {i : Instr} {s t : State} (h : exec i s = .next t) :
    i.wellFormed s.config ∧
      ((∃ e, t = raiseError s e) ∨
       (∃ u tr, t = applyTransition i.opcode.length u tr ∧ Executes i s u tr)) := by
  cases i <;>
    simp only [exec, execNop, execLd, execLoad, execStore, execAdd, execSub, execMul, execDiv, execMod, execInc,
      execDec, execAnd, execOr, execXor, execNot, execCmp, execJmp, execJn, execJnn, execJz, execCall, execRet,
      execPushreg, execPopreg, execClf, execHlt] at h
  case nop => exact exec_cases_of_issue h fun u tr e => by cases e; exact ⟨rfl, rfl, by simp⟩
  case ld => exact exec_cases_of_issue h fun u tr e => by cases e; exact ⟨rfl, by simp, by simp⟩
  case load =>
    refine exec_cases_of_issue h fun u tr e => ?_
    split at e <;> cases e
    exact ⟨rfl, by simp, by simp⟩
  case store =>
    refine exec_cases_of_issue h fun u tr e => ?_
    split at e
    · cases e
    · rename_i v hv
      cases e
      rcases memWrite_cases hv with ⟨-, h⟩ | ⟨-, -, h⟩ | ⟨-, -, h⟩ <;> cases h
      exact ⟨rfl, rfl, by simp⟩
  case div =>
    refine exec_cases_of_issue h fun u tr e => ?_
    unfold divZero finishArith at e
    split at e
    · split at e <;> cases e
      exact ⟨rfl, by simp, by simp⟩
    · cases e
      exact ⟨rfl, by simp, by simp⟩
  case mod =>
    refine exec_cases_of_issue h fun u tr e => ?_
    unfold divZero finishMod at e
    split at e
    · split at e <;> cases e
      exact ⟨rfl, by simp, by simp⟩
    · cases e
      exact ⟨rfl, by simp, by simp⟩
  case jmp => exact exec_cases_of_issue h fun u tr e => by cases e; exact ⟨rfl, rfl, by simp⟩
  case jn => exact exec_cases_of_issue h fun u tr e => by cases e; exact ⟨rfl, rfl, by split <;> simp⟩
  case jnn => exact exec_cases_of_issue h fun u tr e => by cases e; exact ⟨rfl, rfl, by split <;> simp⟩
  case jz => exact exec_cases_of_issue h fun u tr e => by cases e; exact ⟨rfl, rfl, by split <;> simp⟩
  case call =>
    refine exec_cases_of_issue h fun u tr e => ?_
    split at e
    · cases e
    · rename_i v hv
      cases e
      rcases stackPush_cases hv with ⟨-, h⟩ | ⟨-, h⟩ <;> cases h
      exact ⟨rfl, rfl, by simp⟩
  case ret =>
    refine exec_cases_of_issue h fun u tr e => ?_
    split at e
    · cases e
    · rename_i v t' hv
      cases e
      rcases stackPop_cases hv with ⟨-, h⟩ | ⟨_, _, -, h⟩ <;> cases h
      exact ⟨rfl, rfl, by simp⟩
  case pushreg =>
    refine exec_cases_of_issue h fun u tr e => ?_
    split at e
    · cases e
    · rename_i v hv
      cases e
      rcases stackPush_cases hv with ⟨-, h⟩ | ⟨-, h⟩ <;> cases h
      exact ⟨rfl, rfl, by simp⟩
  case popreg =>
    refine exec_cases_of_issue h fun u tr e => ?_
    split at e
    · cases e
    · rename_i v t' hv
      cases e
      rcases stackPop_cases hv with ⟨-, h⟩ | ⟨_, _, -, h⟩ <;> cases h
      exact ⟨rfl, by simp, by simp⟩
  case hlt => exact exec_cases_of_issue h fun u tr e => by cases e; exact ⟨rfl, rfl, by simp⟩
  all_goals exact exec_cases_of_issue h fun u tr e => by cases e; exact ⟨rfl, by simp, by simp⟩

/-! ### The step -/

theorem step_of_running {s : State} (h : s.run = .running) :
    step s = match fetch s with
      | .error e => .next (raiseError s e)
      | .ok i => exec i s := by
  unfold step
  rw [h]
  all_goals rfl

/-- What a step can do: it is taken in a Running run alone, and either raises the error of the decode or is the
execution of the decoded instruction. -/
theorem step_next_cases {s t : State} (h : step s = .next t) :
    s.run = .running ∧
      ((∃ e, fetch s = .error e ∧ t = raiseError s e) ∨ (∃ i, fetch s = .ok i ∧ exec i s = .next t)) := by
  unfold step at h
  split at h
  case h_4 hr =>
    refine ⟨hr, ?_⟩
    split at h
    · rename_i e he
      exact .inl ⟨e, he, (Host.Outcome.next.inj h).symm⟩
    · rename_i i hi
      exact .inr ⟨i, hi, h⟩
  all_goals cases h

end Sys2Proof.Machine
end

