-- ==== Sys2Proof/Laws/Exec.lean ====
section
/-! SUPPORT. One lemma per instruction: on registers that exist, the instruction completes, and the state it leaves is
the sequencer's use of what its execution answers. -/

namespace Sys2Proof.Machine

theorem exec_nop (s : State) :
    exec .nop s = .next (sequence 1 s
      (.ok (s, .advance))) := by
  simp only [exec, execNop]
  exact issue_of_regs _ (by simp)

theorem exec_ld {s : State} (rd : RegIndex) (imm : Word)
    (h : (Instr.ld rd imm).wellFormed s.config) :
    exec (.ld rd imm) s = .next (sequence 6 s
      (.ok (writeReg s rd imm, .advance))) := by
  simp only [exec, execLd]
  exact issue_of_regs _ h

theorem exec_load {s : State} (rd : RegIndex) (addr : Word)
    (h : (Instr.load rd addr).wellFormed s.config) :
    exec (.load rd addr) s = .next (sequence 6 s
      (match memRead s (u32 addr) .word with
        | .error e => .error e
        | .ok v => .ok (writeReg s rd v, .advance))) := by
  simp only [exec, execLoad]
  exact issue_of_regs _ h

theorem exec_store {s : State} (rs : RegIndex) (addr : Word)
    (h : (Instr.store rs addr).wellFormed s.config) :
    exec (.store rs addr) s = .next (sequence 6 s
      (match memWrite s (u32 addr) .word (readReg s rs) with
        | .error e => .error e
        | .ok t => .ok (t, .advance))) := by
  simp only [exec, execStore]
  exact issue_of_regs _ h

theorem exec_add {s : State} (rd rs1 rs2 : RegIndex)
    (h : (Instr.add rd rs1 rs2).wellFormed s.config) :
    exec (.add rd rs1 rs2) s = .next (sequence 4 s
      (finishArith s rd (ovfAdd (readReg s rs1) (readReg s rs2)))) := by
  simp only [exec, execAdd]
  exact issue_of_regs _ h

theorem exec_sub {s : State} (rd rs1 rs2 : RegIndex)
    (h : (Instr.sub rd rs1 rs2).wellFormed s.config) :
    exec (.sub rd rs1 rs2) s = .next (sequence 4 s
      (finishArith s rd (ovfSub (readReg s rs1) (readReg s rs2)))) := by
  simp only [exec, execSub]
  exact issue_of_regs _ h

theorem exec_mul {s : State} (rd rs1 rs2 : RegIndex)
    (h : (Instr.mul rd rs1 rs2).wellFormed s.config) :
    exec (.mul rd rs1 rs2) s = .next (sequence 4 s
      (finishArith s rd (ovfMul (readReg s rs1) (readReg s rs2)))) := by
  simp only [exec, execMul]
  exact issue_of_regs _ h

theorem exec_div {s : State} (rd rs1 rs2 : RegIndex)
    (h : (Instr.div rd rs1 rs2).wellFormed s.config) :
    exec (.div rd rs1 rs2) s = .next (sequence 4 s
      (if s32 (readReg s rs2) = 0 then divZero s fun s r => finishArith s rd r
        else finishArith s rd (ovfDiv (readReg s rs1) (readReg s rs2)))) := by
  simp only [exec, execDiv]
  exact issue_of_regs _ h

theorem exec_mod {s : State} (rd rs1 rs2 : RegIndex)
    (h : (Instr.mod rd rs1 rs2).wellFormed s.config) :
    exec (.mod rd rs1 rs2) s = .next (sequence 4 s
      (if s32 (readReg s rs2) = 0 then divZero s fun s r => finishMod s rd r.1
        else finishMod s rd (ovfRem (readReg s rs1) (readReg s rs2)).1)) := by
  simp only [exec, execMod]
  exact issue_of_regs _ h

theorem exec_inc {s : State} (rd : RegIndex)
    (h : (Instr.inc rd).wellFormed s.config) :
    exec (.inc rd) s = .next (sequence 2 s
      (finishArith s rd (ovfAdd (readReg s rd) (bits32 1)))) := by
  simp only [exec, execInc]
  exact issue_of_regs _ h

theorem exec_dec {s : State} (rd : RegIndex)
    (h : (Instr.dec rd).wellFormed s.config) :
    exec (.dec rd) s = .next (sequence 2 s
      (finishArith s rd (ovfSub (readReg s rd) (bits32 1)))) := by
  simp only [exec, execDec]
  exact issue_of_regs _ h

theorem exec_and {s : State} (rd rs1 rs2 : RegIndex)
    (h : (Instr.and rd rs1 rs2).wellFormed s.config) :
    exec (.and rd rs1 rs2) s = .next (sequence 4 s
      (finishLogic s rd (readReg s rs1 &&& readReg s rs2))) := by
  simp only [exec, execAnd]
  exact issue_of_regs _ h

theorem exec_or {s : State} (rd rs1 rs2 : RegIndex)
    (h : (Instr.or rd rs1 rs2).wellFormed s.config) :
    exec (.or rd rs1 rs2) s = .next (sequence 4 s
      (finishLogic s rd (readReg s rs1 ||| readReg s rs2))) := by
  simp only [exec, execOr]
  exact issue_of_regs _ h

theorem exec_xor {s : State} (rd rs1 rs2 : RegIndex)
    (h : (Instr.xor rd rs1 rs2).wellFormed s.config) :
    exec (.xor rd rs1 rs2) s = .next (sequence 4 s
      (finishLogic s rd (readReg s rs1 ^^^ readReg s rs2))) := by
  simp only [exec, execXor]
  exact issue_of_regs _ h

theorem exec_not {s : State} (rd rs : RegIndex)
    (h : (Instr.not rd rs).wellFormed s.config) :
    exec (.not rd rs) s = .next (sequence 3 s
      (finishLogic s rd (~~~readReg s rs))) := by
  simp only [exec, execNot]
  exact issue_of_regs _ h

theorem exec_cmp {s : State} (ra rb : RegIndex)
    (h : (Instr.cmp ra rb).wellFormed s.config) :
    exec (.cmp ra rb) s = .next (sequence 3 s
      (.ok (setFlags s (flagsCompare (readReg s ra) (readReg s rb) s.flags), .advance))) := by
  simp only [exec, execCmp]
  exact issue_of_regs _ h

theorem exec_jmp (s : State) (addr : Word) :
    exec (.jmp addr) s = .next (sequence 5 s
      (.ok (s, .jumpTo addr))) := by
  simp only [exec, execJmp]
  exact issue_of_regs _ (by simp)

theorem exec_jn (s : State) (addr : Word) :
    exec (.jn addr) s = .next (sequence 5 s
      (.ok (s, if s.flags.negative then .jumpTo addr else .advance))) := by
  simp only [exec, execJn]
  exact issue_of_regs _ (by simp)

theorem exec_jnn (s : State) (addr : Word) :
    exec (.jnn addr) s = .next (sequence 5 s
      (.ok (s, if !s.flags.negative then .jumpTo addr else .advance))) := by
  simp only [exec, execJnn]
  exact issue_of_regs _ (by simp)

theorem exec_jz (s : State) (addr : Word) :
    exec (.jz addr) s = .next (sequence 5 s
      (.ok (s, if s.flags.zero then .jumpTo addr else .advance))) := by
  simp only [exec, execJz]
  exact issue_of_regs _ (by simp)

theorem exec_call (s : State) (addr : Word) :
    exec (.call addr) s = .next (sequence 5 s
      (match stackPush s (linkValue s) with
        | .error e => .error e
        | .ok t => .ok (t, .jumpTo addr))) := by
  simp only [exec, execCall]
  exact issue_of_regs _ (by simp)

theorem exec_ret (s : State) :
    exec .ret s = .next (sequence 1 s
      (match stackPop s with
        | .error e => .error e
        | .ok (v, t) => .ok (t, .jumpTo v))) := by
  simp only [exec, execRet]
  exact issue_of_regs _ (by simp)

theorem exec_pushreg {s : State} (r : RegIndex)
    (h : (Instr.pushreg r).wellFormed s.config) :
    exec (.pushreg r) s = .next (sequence 2 s
      (match stackPush s (readReg s r) with
        | .error e => .error e
        | .ok t => .ok (t, .advance))) := by
  simp only [exec, execPushreg]
  exact issue_of_regs _ h

theorem exec_popreg {s : State} (r : RegIndex)
    (h : (Instr.popreg r).wellFormed s.config) :
    exec (.popreg r) s = .next (sequence 2 s
      (match stackPop s with
        | .error e => .error e
        | .ok (v, t) => .ok (writeReg t r v, .advance))) := by
  simp only [exec, execPopreg]
  exact issue_of_regs _ h

theorem exec_clf (s : State) :
    exec .clf s = .next (sequence 1 s
      (.ok (setFlags s (flagsClear s.flags), .advance))) := by
  simp only [exec, execClf]
  exact issue_of_regs _ (by simp)

theorem exec_hlt (s : State) :
    exec .hlt s = .next (sequence 1 s
      (.ok (s, .halt))) := by
  simp only [exec, execHlt]
  exact issue_of_regs _ (by simp)

end Sys2Proof.Machine
end

