-- ==== Sys2Proof/Laws/PerInstr.lean ====
section
/-! SUPPORT. The per-instruction family `Operands`: an instruction's operands are read back from its own encoded bytes,
whatever follows them, and pass the register check exactly when the instruction is well-formed. -/

namespace Sys2Proof.Laws.Operands

/-- From the encoded bytes of the instruction, and any bytes after them, operand extraction gives the instruction
back, the register check passes if its registers exist, and the bytes are LEN many (30_encoding.md R104, R118). -/
def Statement (i : Instr) : Prop :=
  ∀ (c : Config) (more : List Byte),
    (encode c i).length = i.opcode.length ∧
    assemble i.opcode ((encode c i ++ more).getD · 0) = i ∧
    (i.wellFormed c → badRegister c i.opcode ((encode c i ++ more).getD · 0) = none)

/-- The register check passes on fields that are all below REG_COUNT. -/
theorem badRegister_eq_none {c : Config} {op : Opcode} {b : Nat → Byte}
    (h : ∀ p ∈ op.format.regFields, (b p).toNat < c.regCount) : badRegister c op b = none := by
  simpa [badRegister] using h

theorem nop : Statement .nop := by
  intro c more
  exact ⟨rfl, rfl, fun _ => rfl⟩

theorem ld (rd : RegIndex) (imm : Word) : Statement (.ld rd imm) := by
  intro c more
  exact ⟨rfl, congrArg (Instr.ld rd) (le32_byteAt imm), fun h => badRegister_eq_none fun p hp => by
    obtain rfl : p = 1 := List.mem_singleton.1 hp
    exact h rd (by simp [Instr.regs])⟩

theorem load (rd : RegIndex) (addr : Word) : Statement (.load rd addr) := by
  intro c more
  exact ⟨rfl, congrArg (Instr.load rd) (le32_byteAt addr), fun h => badRegister_eq_none fun p hp => by
    obtain rfl : p = 1 := List.mem_singleton.1 hp
    exact h rd (by simp [Instr.regs])⟩

theorem store (rs : RegIndex) (addr : Word) : Statement (.store rs addr) := by
  intro c more
  exact ⟨rfl, congrArg (Instr.store rs) (le32_byteAt addr), fun h => badRegister_eq_none fun p hp => by
    obtain rfl : p = 1 := List.mem_singleton.1 hp
    exact h rs (by simp [Instr.regs])⟩

theorem add (rd : RegIndex) (rs1 : RegIndex) (rs2 : RegIndex) : Statement (.add rd rs1 rs2) := by
  intro c more
  exact ⟨rfl, rfl, fun h => badRegister_eq_none fun p hp => by
    simp only [Instr.opcode, Opcode.format, Format.regFields, List.mem_cons, List.not_mem_nil, or_false] at hp
    rcases hp with rfl | rfl | rfl
    · exact h rd (by simp [Instr.regs])
    · exact h rs1 (by simp [Instr.regs])
    · exact h rs2 (by simp [Instr.regs])⟩

theorem sub (rd : RegIndex) (rs1 : RegIndex) (rs2 : RegIndex) : Statement (.sub rd rs1 rs2) := by
  intro c more
  exact ⟨rfl, rfl, fun h => badRegister_eq_none fun p hp => by
    simp only [Instr.opcode, Opcode.format, Format.regFields, List.mem_cons, List.not_mem_nil, or_false] at hp
    rcases hp with rfl | rfl | rfl
    · exact h rd (by simp [Instr.regs])
    · exact h rs1 (by simp [Instr.regs])
    · exact h rs2 (by simp [Instr.regs])⟩

theorem mul (rd : RegIndex) (rs1 : RegIndex) (rs2 : RegIndex) : Statement (.mul rd rs1 rs2) := by
  intro c more
  exact ⟨rfl, rfl, fun h => badRegister_eq_none fun p hp => by
    simp only [Instr.opcode, Opcode.format, Format.regFields, List.mem_cons, List.not_mem_nil, or_false] at hp
    rcases hp with rfl | rfl | rfl
    · exact h rd (by simp [Instr.regs])
    · exact h rs1 (by simp [Instr.regs])
    · exact h rs2 (by simp [Instr.regs])⟩

theorem div (rd : RegIndex) (rs1 : RegIndex) (rs2 : RegIndex) : Statement (.div rd rs1 rs2) := by
  intro c more
  exact ⟨rfl, rfl, fun h => badRegister_eq_none fun p hp => by
    simp only [Instr.opcode, Opcode.format, Format.regFields, List.mem_cons, List.not_mem_nil, or_false] at hp
    rcases hp with rfl | rfl | rfl
    · exact h rd (by simp [Instr.regs])
    · exact h rs1 (by simp [Instr.regs])
    · exact h rs2 (by simp [Instr.regs])⟩

theorem mod (rd : RegIndex) (rs1 : RegIndex) (rs2 : RegIndex) : Statement (.mod rd rs1 rs2) := by
  intro c more
  exact ⟨rfl, rfl, fun h => badRegister_eq_none fun p hp => by
    simp only [Instr.opcode, Opcode.format, Format.regFields, List.mem_cons, List.not_mem_nil, or_false] at hp
    rcases hp with rfl | rfl | rfl
    · exact h rd (by simp [Instr.regs])
    · exact h rs1 (by simp [Instr.regs])
    · exact h rs2 (by simp [Instr.regs])⟩

theorem inc (rd : RegIndex) : Statement (.inc rd) := by
  intro c more
  exact ⟨rfl, rfl, fun h => badRegister_eq_none fun p hp => by
    obtain rfl : p = 1 := List.mem_singleton.1 hp
    exact h rd (by simp [Instr.regs])⟩

theorem dec (rd : RegIndex) : Statement (.dec rd) := by
  intro c more
  exact ⟨rfl, rfl, fun h => badRegister_eq_none fun p hp => by
    obtain rfl : p = 1 := List.mem_singleton.1 hp
    exact h rd (by simp [Instr.regs])⟩

theorem and (rd : RegIndex) (rs1 : RegIndex) (rs2 : RegIndex) : Statement (.and rd rs1 rs2) := by
  intro c more
  exact ⟨rfl, rfl, fun h => badRegister_eq_none fun p hp => by
    simp only [Instr.opcode, Opcode.format, Format.regFields, List.mem_cons, List.not_mem_nil, or_false] at hp
    rcases hp with rfl | rfl | rfl
    · exact h rd (by simp [Instr.regs])
    · exact h rs1 (by simp [Instr.regs])
    · exact h rs2 (by simp [Instr.regs])⟩

theorem or (rd : RegIndex) (rs1 : RegIndex) (rs2 : RegIndex) : Statement (.or rd rs1 rs2) := by
  intro c more
  exact ⟨rfl, rfl, fun h => badRegister_eq_none fun p hp => by
    simp only [Instr.opcode, Opcode.format, Format.regFields, List.mem_cons, List.not_mem_nil, or_false] at hp
    rcases hp with rfl | rfl | rfl
    · exact h rd (by simp [Instr.regs])
    · exact h rs1 (by simp [Instr.regs])
    · exact h rs2 (by simp [Instr.regs])⟩

theorem xor (rd : RegIndex) (rs1 : RegIndex) (rs2 : RegIndex) : Statement (.xor rd rs1 rs2) := by
  intro c more
  exact ⟨rfl, rfl, fun h => badRegister_eq_none fun p hp => by
    simp only [Instr.opcode, Opcode.format, Format.regFields, List.mem_cons, List.not_mem_nil, or_false] at hp
    rcases hp with rfl | rfl | rfl
    · exact h rd (by simp [Instr.regs])
    · exact h rs1 (by simp [Instr.regs])
    · exact h rs2 (by simp [Instr.regs])⟩

theorem not (rd : RegIndex) (rs : RegIndex) : Statement (.not rd rs) := by
  intro c more
  exact ⟨rfl, rfl, fun h => badRegister_eq_none fun p hp => by
    simp only [Instr.opcode, Opcode.format, Format.regFields, List.mem_cons, List.not_mem_nil, or_false] at hp
    rcases hp with rfl | rfl
    · exact h rd (by simp [Instr.regs])
    · exact h rs (by simp [Instr.regs])⟩

theorem cmp (ra : RegIndex) (rb : RegIndex) : Statement (.cmp ra rb) := by
  intro c more
  exact ⟨rfl, rfl, fun h => badRegister_eq_none fun p hp => by
    simp only [Instr.opcode, Opcode.format, Format.regFields, List.mem_cons, List.not_mem_nil, or_false] at hp
    rcases hp with rfl | rfl
    · exact h ra (by simp [Instr.regs])
    · exact h rb (by simp [Instr.regs])⟩

theorem jmp (addr : Word) : Statement (.jmp addr) := by
  intro c more
  exact ⟨rfl, congrArg (Instr.jmp) (le32_byteAt addr), fun _ => rfl⟩

theorem jn (addr : Word) : Statement (.jn addr) := by
  intro c more
  exact ⟨rfl, congrArg (Instr.jn) (le32_byteAt addr), fun _ => rfl⟩

theorem jnn (addr : Word) : Statement (.jnn addr) := by
  intro c more
  exact ⟨rfl, congrArg (Instr.jnn) (le32_byteAt addr), fun _ => rfl⟩

theorem jz (addr : Word) : Statement (.jz addr) := by
  intro c more
  exact ⟨rfl, congrArg (Instr.jz) (le32_byteAt addr), fun _ => rfl⟩

theorem call (addr : Word) : Statement (.call addr) := by
  intro c more
  exact ⟨rfl, congrArg (Instr.call) (le32_byteAt addr), fun _ => rfl⟩

theorem ret : Statement .ret := by
  intro c more
  exact ⟨rfl, rfl, fun _ => rfl⟩

theorem pushreg (r : RegIndex) : Statement (.pushreg r) := by
  intro c more
  exact ⟨rfl, rfl, fun h => badRegister_eq_none fun p hp => by
    obtain rfl : p = 1 := List.mem_singleton.1 hp
    exact h r (by simp [Instr.regs])⟩

theorem popreg (r : RegIndex) : Statement (.popreg r) := by
  intro c more
  exact ⟨rfl, rfl, fun h => badRegister_eq_none fun p hp => by
    obtain rfl : p = 1 := List.mem_singleton.1 hp
    exact h r (by simp [Instr.regs])⟩

theorem clf : Statement .clf := by
  intro c more
  exact ⟨rfl, rfl, fun _ => rfl⟩

theorem hlt : Statement .hlt := by
  intro c more
  exact ⟨rfl, rfl, fun _ => rfl⟩

end Sys2Proof.Laws.Operands
end

