-- ==== Sys2Proof/Tests/Slice0.lean ====
section
/-! SUPPORT. The model's own tests: ill-formed terms refused, words written out from the spec's encodings, one-step
vectors of 95_test_vectors.md, and for every statement a state and operands that meet its hypotheses. Each expected
value is the spec's; the section is named. -/

namespace Sys2Proof.Tests

set_option Elab.async false

open Sys2Proof Sys2Proof.Machine

/-! ## Helpers -/

def nextOf : Host.Outcome State Fault Refusal → Option State
  | .next t => some t
  | .fault _ => none
  | .refused _ => none

theorem next_of_any {o : Host.Outcome State Fault Refusal} {P : State → Prop} [DecidablePred P]
    (h : (nextOf o).any (fun t => decide (P t)) = true) : ∃ t, o = .next t ∧ P t := by
  cases o with
  | next t => exact ⟨t, rfl, by simpa [nextOf] using h⟩
  | fault _ => cases h
  | refused _ => cases h

/-- The state after one step on the bytes at pc. -/
def after (bytes : List Byte) (s : State) : Option State := nextOf (step (placeAtPc s bytes))

/-- A run on a program, at its start. -/
def running (program : List Byte) : State := startRun State.reset program

/-- Registers set, from R0 up. -/
def withRegs (vs : List Word) (s : State) : State := { s with regs := vs ++ s.regs.drop vs.length }

/-- Zero, negative and overflow set. -/
def withFlags (z n o : Bool) (s : State) : State :=
  { s with flags := { zero := z, carry := false, overflow := o, negative := n } }

def withStack (stk : List Word) (s : State) : State := { s with stk := stk }

def atPc (pc : Word) (s : State) : State := { s with pc := pc }

def withConfig (c : Config) (s : State) : State := { s with config := c }

/-- R0 and the flags: what a row of 95_test_vectors.md 2.5 and 2.6 fixes. -/
structure AluRow where
  r0 : Word
  zero : Bool
  negative : Bool
  overflow : Bool
  carry : Bool
deriving DecidableEq, Repr

def alu (t : State) : AluRow := ⟨readReg t 0, t.flags.zero, t.flags.negative, t.flags.overflow, t.flags.carry⟩

/-! ## Ill-formed terms: REG_COUNT is 8, so register 8 does not exist (10_state.md R22) -/

theorem test_illformed_one_register :
    ∀ i ∈ [Instr.ld 8 0, .load 8 0, .store 8 0, .inc 8, .dec 8, .pushreg 8, .popreg 8],
      ¬i.wellFormed defaultConfig := by decide +kernel

theorem test_illformed_first_of_three :
    ∀ i ∈ [Instr.add 8 0 0, .sub 8 0 0, .mul 8 0 0, .div 8 0 0, .mod 8 0 0, .and 8 0 0, .or 8 0 0, .xor 8 0 0],
      ¬i.wellFormed defaultConfig := by decide +kernel

theorem test_illformed_second_of_three :
    ∀ i ∈ [Instr.add 0 8 0, .sub 0 8 0, .mul 0 8 0, .div 0 8 0, .mod 0 8 0, .and 0 8 0, .or 0 8 0, .xor 0 8 0],
      ¬i.wellFormed defaultConfig := by decide +kernel

theorem test_illformed_third_of_three :
    ∀ i ∈ [Instr.add 0 0 8, .sub 0 0 8, .mul 0 0 8, .div 0 0 8, .mod 0 0 8, .and 0 0 8, .or 0 0 8, .xor 0 0 8],
      ¬i.wellFormed defaultConfig := by decide +kernel

theorem test_illformed_two_registers :
    ∀ i ∈ [Instr.not 8 0, .not 0 8, .cmp 8 0, .cmp 0 8], ¬i.wellFormed defaultConfig := by decide +kernel

theorem test_wellformed_last_register :
    ∀ i ∈ [Instr.ld 7 0, .add 7 7 7, .not 7 7, .inc 7, .jmp 0xFFFFFFFF, .hlt], i.wellFormed defaultConfig := by decide +kernel

/-! ## Decoding: bytes written out from 30_encoding.md R101 and R102 -/

def dec (bytes : List Byte) : Except VmError Instr := decode defaultConfig bytes 0

theorem test_decode_move :
    dec [0x01, 2, 0xFB, 0xFF, 0xFF, 0xFF] = .ok (.ld 2 0xFFFFFFFB) ∧
    dec [0x02, 1, 0x78, 0x56, 0x34, 0x12] = .ok (.load 1 0x12345678) ∧
    dec [0x03, 5, 0x20, 0, 0, 0] = .ok (.store 5 32) := by decide +kernel

theorem test_decode_arithmetic :
    dec [0x04, 1, 2, 3] = .ok (.add 1 2 3) ∧ dec [0x05, 1, 2, 3] = .ok (.sub 1 2 3) ∧
    dec [0x06, 1, 2, 3] = .ok (.mul 1 2 3) ∧ dec [0x07, 1, 2, 3] = .ok (.div 1 2 3) ∧
    dec [0x08, 1, 2, 3] = .ok (.mod 1 2 3) ∧ dec [0x09, 6] = .ok (.inc 6) ∧ dec [0x0A, 6] = .ok (.dec 6) := by
  decide +kernel

theorem test_decode_logic :
    dec [0x0B, 1, 2, 3] = .ok (.and 1 2 3) ∧ dec [0x0C, 1, 2, 3] = .ok (.or 1 2 3) ∧
    dec [0x0D, 1, 2, 3] = .ok (.xor 1 2 3) ∧ dec [0x0E, 1, 2] = .ok (.not 1 2) ∧
    dec [0x0F, 1, 2] = .ok (.cmp 1 2) := by decide +kernel

theorem test_decode_control :
    dec [0x10, 0x78, 0x56, 0x34, 0x12] = .ok (.jmp 0x12345678) ∧ dec [0x11, 0x13, 0, 0, 0] = .ok (.jn 19) ∧
    dec [0x12, 0, 0x20, 0, 0] = .ok (.jnn 0x2000) ∧ dec [0x13, 0, 0, 0x1C, 0] = .ok (.jz 0x1C0000) ∧
    dec [0x14, 0, 0, 0, 0x12] = .ok (.call 0x12000000) ∧ dec [0x15] = .ok .ret := by decide +kernel

theorem test_decode_stack_flags_halt :
    dec [0x16, 3] = .ok (.pushreg 3) ∧ dec [0x17, 4] = .ok (.popreg 4) ∧ dec [0x18] = .ok .clf ∧
    dec [0x00] = .ok .nop ∧ dec [0xFF] = .ok .hlt := by decide +kernel

/-- 95_test_vectors.md 2.1, the rows that fail. -/
theorem test_decode_errors :
    dec [] = .error .invalidInstruction ∧ decode defaultConfig [0x00, 0xFF] 2 = .error .invalidInstruction ∧
    decode defaultConfig [0x00, 0xFF] 0xFFFFFFFF = .error .invalidInstruction ∧
    dec [0x04, 0, 1] = .error .invalidInstruction ∧ dec [0xF0] = .error (.invalidOpcode 0xF0) ∧
    dec [0x19] = .error (.invalidOpcode 0x19) ∧ dec [0x04, 8, 0, 1] = .error (.invalidRegister 8) ∧
    dec [0x04, 9, 0x0A, 1] = .error (.invalidRegister 9) ∧ dec [0x04, 0, 1, 0x0C] = .error (.invalidRegister 12) ∧
    dec [0x01, 8, 0] = .error .invalidInstruction ∧ dec [0x0E, 3, 9] = .error (.invalidRegister 9) := by
  decide +kernel

theorem test_decode_with_256_registers :
    decode { defaultConfig with regCount := 256 } [0x04, 0xFF, 0xFF, 0xFF] 0 = .ok (.add 255 255 255) := by
  decide +kernel

/-- spec/opcode_table.json numbers bit 0 as the lowest bit of the first byte. -/
theorem test_decodeTableWord :
    decodeTableWord 48 0xFFFFFFFB0201 = some (.ld 2 0xFFFFFFFB) ∧ decodeTableWord 8 0xFF = some .hlt ∧
    decodeTableWord 8 0x10 = some (.jmp 0) := by decide +kernel

theorem test_withFetchWord_runs_the_word :
    (nextOf (step (State.reset.withFetchWord 48 0xFFFFFFFB0201))).map (readReg · 2) = some 0xFFFFFFFB := by
  decide +kernel

/-! ## One step of each instruction -/

/-- 95_test_vectors.md 2.4. -/
theorem test_ld_keeps_flags :
    (after [0x01, 0, 0xFB, 0xFF, 0xFF, 0xFF] (withFlags true true true State.reset)).map alu =
      some ⟨0xFFFFFFFB, true, true, true, false⟩ := by decide +kernel

theorem test_load_little_endian :
    (after [0x02, 1, 8, 0, 0, 0] { State.reset with mem := [(8, 0x78), (9, 0x56), (10, 0x34), (11, 0x12)] }).map
      (readReg · 1) = some 0x12345678 := by decide +kernel

theorem test_load_misaligned :
    (after [0x02, 1, 6, 0, 0, 0] (withRegs [0, 9] State.reset)).map
      (fun t => (t.err, t.run, t.pc, t.steps, readReg t 1)) =
      some (some (.memoryNotAligned 6 4), .faulted, 0, 0, 9) := by decide +kernel

theorem test_store_little_endian :
    (after [0x03, 0, 8, 0, 0, 0] (withRegs [0x12345678] State.reset)).map State.mem =
      some [(8, 0x78), (9, 0x56), (10, 0x34), (11, 0x12)] := by decide +kernel

theorem test_store_bounds_before_alignment :
    (after [0x03, 0, 62, 0, 0, 0] (withRegs [1] State.reset)).map (fun t => (t.err, t.mem)) =
      some (some (.memoryOutOfBounds 62 4), []) := by decide +kernel

/-- 95_test_vectors.md 2.5: the operands are R1 and R2, the result goes to R0, the flags before are 0. -/
def arith (opcode : Byte) (a b : Word) : Option AluRow :=
  (after [opcode, 0, 1, 2] (withRegs [0, a, b] State.reset)).map alu

theorem test_add :
    arith 0x04 0x7FFFFFFF 1 = some ⟨0x80000000, false, true, true, false⟩ ∧
    arith 0x04 0x80000000 0x80000000 = some ⟨0, true, false, true, false⟩ ∧
    arith 0x04 0xFFFFFFFF 1 = some ⟨0, true, false, false, false⟩ := by decide +kernel

/-- 95_test_vectors.md 2.5: `ADD R3,R3,R3` on 5, and ARITH clears an earlier overflow. -/
theorem test_add_same_register :
    (after [0x04, 3, 3, 3] (withFlags false false true (withRegs [0, 0, 0, 5] State.reset))).map
      (fun t => (readReg t 3, t.flags.overflow)) = some (10, false) := by decide +kernel

theorem test_sub :
    arith 0x05 0x80000000 1 = some ⟨0x7FFFFFFF, false, false, true, false⟩ ∧
    arith 0x05 0 0x80000000 = some ⟨0x80000000, false, true, true, false⟩ ∧
    arith 0x05 3 5 = some ⟨0xFFFFFFFE, false, true, false, false⟩ := by decide +kernel

theorem test_mul :
    arith 0x06 65536 65536 = some ⟨0, true, false, true, false⟩ ∧
    arith 0x06 0xFFFFFFFF 0x80000000 = some ⟨0x80000000, false, true, true, false⟩ ∧
    arith 0x06 46341 46341 = some ⟨0x80001219, false, true, true, false⟩ ∧
    arith 0x06 0xFFFFFFFF 0xFFFFFFFF = some ⟨1, false, false, false, false⟩ := by decide +kernel

theorem test_div :
    arith 0x07 7 0xFFFFFFFE = some ⟨0xFFFFFFFD, false, true, false, false⟩ ∧
    arith 0x07 0xFFFFFFF9 2 = some ⟨0xFFFFFFFD, false, true, false, false⟩ ∧
    arith 0x07 0x80000000 0xFFFFFFFF = some ⟨0x80000000, false, true, true, false⟩ ∧
    arith 0x07 1 2 = some ⟨0, true, false, false, false⟩ := by decide +kernel

theorem test_div_by_zero :
    (after [0x07, 0, 1, 2] (withRegs [9, 5, 0] State.reset)).map (fun t => (t.err, t.run, readReg t 0)) =
      some (some .divisionByZero, .faulted, 9) := by decide +kernel

theorem test_mod :
    arith 0x08 0xFFFFFFF9 2 = some ⟨0xFFFFFFFF, false, true, false, false⟩ ∧
    arith 0x08 7 0xFFFFFFFE = some ⟨1, false, false, false, false⟩ ∧
    arith 0x08 0x80000000 0xFFFFFFFF = some ⟨0, true, false, false, false⟩ ∧
    arith 0x08 0x80000000 3 = some ⟨0xFFFFFFFE, false, true, false, false⟩ := by decide +kernel

/-- 95_test_vectors.md 2.5: an overflow set before survives under KEEP and is cleared under CLEAR. -/
theorem test_mod_overflow :
    (after [0x08, 0, 1, 2] (withFlags false false true (withRegs [0, 5, 3] State.reset))).map alu =
      some ⟨2, false, false, true, false⟩ ∧
    (after [0x08, 0, 1, 2] (withFlags false false true (withRegs [0, 5, 3]
      (withConfig { defaultConfig with modOvf := .clear } State.reset)))).map alu =
      some ⟨2, false, false, false, false⟩ := by decide +kernel

theorem test_inc :
    (after [0x09, 0] (withRegs [0x7FFFFFFF] State.reset)).map alu = some ⟨0x80000000, false, true, true, false⟩ ∧
    (after [0x09, 0] (withRegs [0xFFFFFFFF] State.reset)).map alu = some ⟨0, true, false, false, false⟩ := by
  decide +kernel

theorem test_dec :
    (after [0x0A, 0] (withRegs [0x80000000] State.reset)).map alu = some ⟨0x7FFFFFFF, false, false, true, false⟩ ∧
    (after [0x0A, 0] State.reset).map alu = some ⟨0xFFFFFFFF, false, true, false, false⟩ := by decide +kernel

/-- 95_test_vectors.md 2.6: O = 1 before stays. -/
theorem test_and :
    (after [0x0B, 0, 1, 2] (withFlags false false true (withRegs [0, 0xF0F0F0F0, 0x0F0F0F0F] State.reset))).map alu =
      some ⟨0, true, false, true, false⟩ ∧
    arith 0x0B 0x80000000 0xFFFFFFFF = some ⟨0x80000000, false, true, false, false⟩ := by decide +kernel

theorem test_or :
    arith 0x0C 0x00F0 0x000F = some ⟨0xFF, false, false, false, false⟩ ∧
    arith 0x0C 0 0 = some ⟨0, true, false, false, false⟩ := by decide +kernel

theorem test_xor :
    arith 0x0D 0xFF00FF00 0xFFFF0000 = some ⟨0x00FFFF00, false, false, false, false⟩ ∧
    arith 0x0D 5 5 = some ⟨0, true, false, false, false⟩ := by decide +kernel

theorem test_not :
    (after [0x0E, 0, 1] State.reset).map alu = some ⟨0xFFFFFFFF, false, true, false, false⟩ ∧
    (after [0x0E, 0, 1] (withRegs [0, 0x7FFFFFFF] State.reset)).map alu =
      some ⟨0x80000000, false, true, false, false⟩ := by decide +kernel

theorem test_cmp :
    (after [0x0F, 0, 1] (withFlags false true true (withRegs [5, 5] State.reset))).map alu =
      some ⟨5, true, true, true, false⟩ ∧
    (after [0x0F, 0, 1] (withFlags true false false (withRegs [0, 0x80000000] State.reset))).map alu =
      some ⟨0, false, false, false, false⟩ := by decide +kernel

/-- 95_test_vectors.md 2.7. -/
theorem test_jmp : (after [0x10, 12, 0, 0, 0] State.reset).map State.pc = some 12 := by decide +kernel

theorem test_jn :
    (after [0x11, 19, 0, 0, 0] (atPc 8 (withFlags false true false State.reset))).map State.pc = some 19 ∧
    (after [0x11, 19, 0, 0, 0] (atPc 8 (withFlags true false false State.reset))).map State.pc = some 13 := by
  decide +kernel

theorem test_jnn :
    (after [0x12, 32, 0, 0, 0] (withFlags true false false State.reset)).map State.pc = some 32 ∧
    (after [0x12, 32, 0, 0, 0] (withFlags false true false State.reset)).map State.pc = some 5 := by decide +kernel

theorem test_jz :
    (after [0x13, 28, 0, 0, 0] (atPc 18 (withFlags true false false State.reset))).map State.pc = some 28 ∧
    (after [0x13, 28, 0, 0, 0] (atPc 18 State.reset)).map State.pc = some 23 := by decide +kernel

theorem test_call :
    (after [0x14, 18, 0, 0, 0] (atPc 6 State.reset)).map (fun t => (t.stk, t.pc)) = some ([11], 18) ∧
    (after [0x14, 18, 0, 0, 0] (atPc 6 (withConfig { defaultConfig with callLink := .self } State.reset))).map
      (fun t => (t.stk, t.pc)) = some ([6], 18) := by decide +kernel

theorem test_call_on_full_stack :
    (after [0x14, 18, 0, 0, 0] (withStack [3] (atPc 6 (withConfig { defaultConfig with stackCap := 1 } State.reset)))).map
      (fun t => (t.err, t.stk, t.pc)) = some (some .stackOverflow, [3], 6) := by decide +kernel

theorem test_ret :
    (after [0x15] (withStack [7, 11] State.reset)).map (fun t => (t.stk, t.pc)) = some ([7], 11) := by decide +kernel

theorem test_ret_on_empty_stack :
    (after [0x15] State.reset).map (fun t => (t.err, t.pc)) = some (some .stackUnderflow, 0) := by decide +kernel

/-- 95_test_vectors.md 2.8. -/
theorem test_pushreg :
    (after [0x16, 0] (withRegs [5] (withStack [9] State.reset))).map State.stk = some [9, 5] := by decide +kernel

theorem test_popreg :
    (after [0x17, 1] (withStack [9, 5] State.reset)).map (fun t => (readReg t 1, t.stk)) = some (5, [9]) := by
  decide +kernel

theorem test_popreg_on_empty_stack :
    (after [0x17, 1] (withRegs [0, 9] State.reset)).map (fun t => (t.err, readReg t 1)) =
      some (some .stackUnderflow, 9) := by decide +kernel

theorem test_clf :
    (after [0x18] (withFlags true true true State.reset)).map alu = some ⟨0, false, false, false, false⟩ := by
  decide +kernel

theorem test_hlt :
    (after [0xFF] (atPc 16 { State.reset with steps := 4 })).map (fun t => (t.run, t.steps, t.pc)) =
      some (.halted, 5, 16) := by decide +kernel

theorem test_nop : (after [0x00] (atPc 3 State.reset)).map (fun t => (t.pc, t.run)) = some (4, .running) := by
  decide +kernel

/-! ## The memory bus and the stack manager -/

/-- 95_test_vectors.md 2.2. At 61 the bound fails too, and comes first by 20_memory.md R65 (log entry 14). -/
theorem test_bus_read :
    memRead State.reset 60 .word = .ok 0 ∧ memRead State.reset 61 .word = .error (.memoryOutOfBounds 61 4) ∧
    memRead State.reset 64 .word = .error (.memoryOutOfBounds 64 4) ∧
    memRead State.reset 63 .half = .error (.memoryOutOfBounds 63 2) ∧ memRead State.reset 63 .byte = .ok 0 ∧
    memRead State.reset 2 .word = .error (.memoryNotAligned 2 4) ∧
    memRead State.reset 0xFFFFFFFE .word = .error (.memoryOutOfBounds 0xFFFFFFFE 4) := by decide +kernel

theorem test_bus_mixed_widths :
    (memWrite State.reset 8 .word 0x12345678).toOption.map (fun t =>
      [memRead t 8 .byte, memRead t 9 .byte, memRead t 8 .half, memRead t 10 .half]) =
      some [.ok 0x78, .ok 0x56, .ok 0x5678, .ok 0x1234] := by decide +kernel

/-- 95_test_vectors.md 2.3, STACK_CAP = 2. -/
theorem test_stack_order :
    popMany (withStack [1, 2] State.reset) 2 = .ok ([2, 1], State.reset) ∧
    stackPush (withStack [1, 2] (withConfig { defaultConfig with stackCap := 2 } State.reset)) 3 =
      .error .stackOverflow := by decide +kernel

/-! ## Witnesses: for each statement with hypotheses, states and operands that meet them, clause by clause

`next_of_any` gives the next state a hypothesis speaks of. -/

/-- The configuration of the vectors with DIV0_MODE = DRAW, at a state whose R2 is 0. -/
def drawing : State := withConfig { defaultConfig with div0Mode := .draw } State.reset

/-- STACK_CAP entries on the stack. -/
def full : State := withStack (List.replicate 16 3) State.reset

def halted : State := { State.reset with run := .halted, steps := 3 }

def faulted : State := { State.reset with run := .faulted, err := some .stackUnderflow }

theorem test_default_legal : defaultConfig.legal := by decide +kernel

theorem test_wf_reset : State.reset.wf := ⟨test_default_legal, by decide +kernel⟩

theorem test_wf_drawing : drawing.wf := ⟨test_default_legal, by decide +kernel⟩

theorem test_wf_full : full.wf := ⟨test_default_legal, by decide +kernel⟩

theorem test_wf_halted : halted.wf := ⟨test_default_legal, by decide +kernel⟩

theorem test_wf_faulted : faulted.wf := ⟨test_default_legal, by decide +kernel⟩

theorem test_wf_running {program : List Byte} (h : program.length < 2 ^ 32) : (running program).wf :=
  ⟨test_default_legal, rfl, rfl, ⟨.nil, nofun⟩, nofun, Nat.zero_le _, h, by simp [running, startRun, State.construct],
    by simp [running, startRun]⟩

theorem test_wf_stack {stk : List Word} (h : stk.length ≤ 16) : (withStack stk State.reset).wf :=
  ⟨test_default_legal, rfl, rfl, ⟨.nil, nofun⟩, nofun, h, Nat.zero_lt_succ _,
    ⟨fun e => absurd rfl e, nofun⟩, fun _ => ⟨rfl, rfl⟩⟩

theorem witness_ConstructionState :
    State.reset.run = .ready ∧ State.reset.prog = [] ∧ State.reset.steps = 0 ∧ State.reset.err = none ∧
    hostStep State.reset (.push 1) = some (withStack [1] State.reset, .done) ∧
    (withStack [1] State.reset).run = .ready := by decide +kernel

theorem witness_StartOfRunClears :
    (∀ s ∈ [State.reset, halted, faulted], s.run ≠ .running) ∧ [(0x00 : Byte), 0xFF].length < 2 ^ 32 ∧
    ([] : List Byte).length < 2 ^ 32 := by decide +kernel

theorem witness_StepKeepsInvariant :
    (running [0x00]).wf ∧ ∃ t, step (running [0x00]) = .next t ∧ t.run = .running :=
  ⟨test_wf_running (by decide), next_of_any (by decide +kernel)⟩

theorem witness_HostCommandKeepsInvariant :
    State.reset.wf ∧ hostStep State.reset (.push 1) = some (withStack [1] State.reset, .done) :=
  ⟨test_wf_reset, by decide +kernel⟩

theorem witness_StepRunsTheDecodedInstruction :
    (running [0x00]).run = .running ∧ decode defaultConfig (running [0x00]).prog 0 = .ok .nop ∧
    (atPc 1 (running [0x00])).run = .running ∧
    decode defaultConfig (atPc 1 (running [0x00])).prog 1 = .error .invalidInstruction := by decide +kernel

theorem witness_OnlyANewRunLeavesAnEndedRun :
    (∀ s ∈ [State.reset, halted, faulted], s.run ≠ .running) ∧
    (∃ t, step (running [0x00]) = .next t ∧ t.run = .running) ∧
    hostStep halted (.push 1) = some (withStack [1] halted, .done) ∧
    hostStep faulted (.run [0xFF]) = some (startRun faulted [0xFF], .done) :=
  ⟨by decide +kernel, next_of_any (by decide +kernel), by decide +kernel, by decide +kernel⟩

theorem witness_EveryRunningStepCompletes : (running []).run = .running := by decide +kernel

theorem witness_OnlyMissingRegistersAreRefused :
    (Instr.inc 7).wellFormed State.reset.config ∧ ¬(Instr.inc 8).wellFormed State.reset.config := by decide +kernel

theorem witness_FaultsArePrecise :
    (running [0xF0]).run = .running ∧ (∃ t, step (running [0xF0]) = .next t ∧ t.run = .faulted) ∧
    (∃ t, step (running [0x15]) = .next t ∧ t.run = .faulted) :=
  ⟨by decide +kernel, next_of_any (by decide +kernel), next_of_any (by decide +kernel)⟩

theorem witness_EachErrorHasItsSource :
    (∀ program : List Byte, program.length < 2 ^ 32 → (running program).wf) ∧
    (∃ t, step (running [0x02, 1, 61, 0, 0, 0]) = .next t ∧ t.err = some (.memoryOutOfBounds 61 4)) ∧
    (∃ t, step (running [0x03, 1, 2, 0, 0, 0]) = .next t ∧ t.err = some (.memoryNotAligned 2 4)) ∧
    (∃ t, step (running [0xF0]) = .next t ∧ t.err = some (.invalidOpcode 0xF0)) ∧
    (∃ t, step (running [0x04]) = .next t ∧ t.err = some .invalidInstruction) ∧
    (∃ t, step (running [0x09, 8]) = .next t ∧ t.err = some (.invalidRegister 8)) ∧
    (∃ t, step (running [0x07, 0, 1, 2]) = .next t ∧ t.err = some .divisionByZero) ∧
    (∃ t, step (running [0x17, 1]) = .next t ∧ t.err = some .stackUnderflow) :=
  ⟨fun _ => test_wf_running, next_of_any (by decide +kernel), next_of_any (by decide +kernel),
    next_of_any (by decide +kernel), next_of_any (by decide +kernel), next_of_any (by decide +kernel),
    next_of_any (by decide +kernel), next_of_any (by decide +kernel)⟩

theorem witness_EachErrorHasItsSource_stackOverflow :
    (withStack (List.replicate 16 3) (running [0x16, 1])).wf ∧
    ∃ t, step (withStack (List.replicate 16 3) (running [0x16, 1])) = .next t ∧ t.err = some .stackOverflow :=
  ⟨⟨test_default_legal, by decide +kernel⟩, next_of_any (by decide +kernel)⟩

theorem witness_HaltExactlyOnHlt :
    (∃ t, step (running [0xFF]) = .next t ∧ t.run = .halted) ∧
    (∃ t, step (running [0x00]) = .next t ∧ t.run = .running) :=
  ⟨next_of_any (by decide +kernel), next_of_any (by decide +kernel)⟩

theorem witness_StepsCountsCompletedInstructions :
    (∃ t, step (running [0xFF]) = .next t ∧ t.steps = 1) ∧
    (∃ t, step (running [0x15]) = .next t ∧ t.run = .faulted ∧ t.steps = 0) :=
  ⟨next_of_any (by decide +kernel), next_of_any (by decide +kernel)⟩

theorem witness_OutcomeIsBinary :
    halted.wf ∧ halted.run = .halted ∧ faulted.wf ∧ faulted.run = .faulted ∧
    State.reset.wf ∧ State.reset.run = .ready ∧ (running []).wf ∧ (running []).run = .running :=
  ⟨test_wf_halted, rfl, test_wf_faulted, rfl, test_wf_reset, rfl, test_wf_running (by decide), rfl⟩

theorem witness_StepKeepsProgramAndParameters : ∃ t, step (running [0x00]) = .next t ∧ t.prog = [0x00] :=
  next_of_any (by decide +kernel)

theorem witness_TransitionUpdatesPcOnce :
    State.reset.err = none ∧ (∃ t, exec .hlt State.reset = .next t ∧ t.err = none) ∧
    (∃ t, exec .ret State.reset = .next t ∧ t.err ≠ none) :=
  ⟨by decide, next_of_any (by decide +kernel), next_of_any (by decide +kernel)⟩

theorem witness_AdvanceNeverWraps :
    (running [0x00]).wf ∧ decode defaultConfig [0x00] 0 = .ok .nop ∧ Advances (running [0x00]) .nop ∧
    (∃ t, step (running [0x00]) = .next t ∧ t.err = none) ∧
    [(0x00 : Byte)].length ≤ 1 ∧ (running [0x00]).prog.length ≤ (0xFFFFFFFF : Word).toNat ∧
    (∃ t, exec (.jmp 0xFFFFFFFF) (running [0x00]) = .next t ∧ t.run = .running ∧
      (running [0x00]).prog.length ≤ t.pc.toNat) :=
  ⟨test_wf_running (by decide), by decide +kernel, trivial, next_of_any (by decide +kernel), by decide, by decide +kernel,
    next_of_any (by decide +kernel)⟩

theorem witness_UnnamedRegistersPlayNoPart :
    destOf (.inc 7) ≠ some 0 ∧ (0 : RegIndex) ∉ (Instr.inc 7).regs ∧
    ∃ t, exec (.inc 7) State.reset = .next t ∧ readReg t 7 = 1 :=
  ⟨by decide +kernel, by decide +kernel, next_of_any (by decide +kernel)⟩

theorem witness_FlagsOnlyTheirInstructionsWrite :
    (∃ t, exec .nop State.reset = .next t ∧ t.err = none) ∧
    (∃ t, exec (.mod 0 1 2) (withRegs [0, 5, 3] State.reset) = .next t ∧ t.err = none) ∧
    (withRegs [0, 5, 3] State.reset).config.modOvf = .keep :=
  ⟨next_of_any (by decide +kernel), next_of_any (by decide +kernel), by decide⟩

theorem witness_CarryIsInert :
    State.reset.flags.carry = false ∧ ∃ t, exec .clf State.reset = .next t ∧ t.err = none :=
  ⟨by decide, next_of_any (by decide +kernel)⟩

theorem witness_MemoryAndStackOnlyTheirInstructionsWrite :
    (∃ t, exec (.load 1 60) State.reset = .next t ∧ t.err = none) ∧
    (∃ t, exec (.store 1 60) State.reset = .next t ∧ t.err = none) :=
  ⟨next_of_any (by decide +kernel), next_of_any (by decide +kernel)⟩

/-- The result statements' encoding clauses are about the maps that equal the default one. -/
theorem witness_encodings : defaultConfig.opcodeMap = defaultOpcodeMap := rfl

theorem witness_LoadImmediateResult :
    State.reset.wf ∧ (Instr.ld 7 0).wellFormed defaultConfig ∧ defaultConfig.regCount ≤ (8 : RegIndex).val ∧
    ([] : List Byte).length < 5 ∧ [(7 : Byte), 0, 0, 0].length < 5 :=
  ⟨test_wf_reset, by decide +kernel⟩

theorem witness_LoadResult :
    State.reset.wf ∧ (Instr.load 7 60).wellFormed defaultConfig ∧
    ¬defaultConfig.memCap < (60 : Word).toNat + 4 ∧ (60 : Word).toNat % 4 = 0 ∧
    ¬defaultConfig.memCap < (59 : Word).toNat + 4 ∧ (59 : Word).toNat % 4 ≠ 0 ∧
    defaultConfig.memCap < (61 : Word).toNat + 4 ∧ defaultConfig.memCap < (0xFFFFFFFF : Word).toNat + 4 :=
  ⟨test_wf_reset, by decide +kernel⟩

theorem witness_StoreResult :
    State.reset.wf ∧ (Instr.store 7 60).wellFormed defaultConfig ∧
    ¬defaultConfig.memCap < (60 : Word).toNat + 4 ∧ (60 : Word).toNat % 4 = 0 ∧
    ¬defaultConfig.memCap < (2 : Word).toNat + 4 ∧ (2 : Word).toNat % 4 ≠ 0 ∧
    defaultConfig.memCap < (62 : Word).toNat + 4 :=
  ⟨test_wf_reset, by decide +kernel⟩

theorem witness_AddSubMulResult : State.reset.wf ∧ (Instr.add 7 7 0).wellFormed State.reset.config :=
  ⟨test_wf_reset, by decide +kernel⟩

/-- A divisor of 1, and of 0 under FAULT and under DRAW. -/
theorem witness_DivResult :
    (withRegs [0, 5, 1] State.reset).wf ∧ (Instr.div 7 1 2).wellFormed defaultConfig ∧
    readReg (withRegs [0, 5, 1] State.reset) 2 ≠ 0 ∧
    State.reset.wf ∧ readReg State.reset 2 = 0 ∧ State.reset.config.div0Mode = .fault ∧
    drawing.wf ∧ readReg drawing 2 = 0 ∧ drawing.config.div0Mode ≠ .fault :=
  ⟨⟨test_default_legal, by decide +kernel⟩, by decide +kernel, by decide +kernel, test_wf_reset, by decide +kernel,
    rfl, test_wf_drawing, by decide +kernel, by decide⟩

theorem witness_ModResult :
    (withRegs [0, 5, 1] State.reset).wf ∧ (Instr.mod 7 1 2).wellFormed defaultConfig ∧
    readReg (withRegs [0, 5, 1] State.reset) 2 ≠ 0 ∧
    State.reset.wf ∧ readReg State.reset 2 = 0 ∧ State.reset.config.div0Mode = .fault ∧
    drawing.wf ∧ readReg drawing 2 = 0 ∧ drawing.config.div0Mode ≠ .fault :=
  ⟨⟨test_default_legal, by decide +kernel⟩, by decide +kernel, by decide +kernel, test_wf_reset, by decide +kernel,
    rfl, test_wf_drawing, by decide +kernel, by decide⟩

set_option maxRecDepth 20000 in
/-- 41_arithmetic.md R154, the last sentence of 95_test_vectors.md 2.5: under DRAW the division completes, with the
free values of the draw counter, whatever they are. -/
theorem test_div_by_zero_draws :
    (after [0x07, 0, 1, 2] drawing).map (fun t => (readReg t 0, t.flags.overflow, t.err, t.draws)) =
      some (Config.drawResult 0, Config.drawWrap 0, none, 1) := rfl

theorem witness_IncDecResult : State.reset.wf ∧ (7 : RegIndex).val < State.reset.config.regCount :=
  ⟨test_wf_reset, by decide +kernel⟩

theorem witness_DivisionWrapsOnlyAtTheMinimum : (0xFFFFFFFF : Word) ≠ 0 := by decide

theorem witness_QuotientAndRemainderRebuildTheDividend :
    (2 : Word) ≠ 0 ∧ 0 < s32 (ovfRem 7 2).1 ∧ s32 (ovfRem 0xFFFFFFF9 2).1 < 0 := by decide +kernel

theorem witness_LogicResult :
    State.reset.wf ∧ (Instr.and 7 7 0).wellFormed State.reset.config ∧
    (Instr.not 7 7).wellFormed State.reset.config :=
  ⟨test_wf_reset, by decide +kernel⟩

theorem witness_CompareResult : (Instr.cmp 7 0).wellFormed State.reset.config := by decide +kernel

theorem witness_JumpResult :
    (running [0x10, 0, 1, 0, 0]).run = .running ∧ (running [0x10, 0, 1, 0, 0]).prog.length ≤ (5 : Word).toNat := by
  decide +kernel

theorem witness_ConditionalJumpResult :
    defaultConfig.opcodeMap = defaultOpcodeMap ∧ State.reset.flags.negative = false ∧
    State.reset.flags.zero = false ∧ (withFlags true true false State.reset).flags.negative = true ∧
    (withFlags true true false State.reset).flags.zero = true := by decide +kernel

theorem witness_CallResult :
    defaultConfig.opcodeMap = defaultOpcodeMap ∧ full.stk.length = full.config.stackCap ∧
    State.reset.stk.length ≠ State.reset.config.stackCap ∧ (running [0x14, 18, 0, 0, 0]).wf ∧
    decode defaultConfig (running [0x14, 18, 0, 0, 0]).prog 0 = .ok (.call 18) :=
  ⟨rfl, by decide, by decide, test_wf_running (by decide), by decide +kernel⟩

theorem witness_ReturnResult :
    defaultConfig.opcodeMap = defaultOpcodeMap ∧ State.reset.stk = [] ∧
    (withStack [7, 11] State.reset).stk = [7] ++ [11] := by decide +kernel

theorem witness_ReturnComesBackAfterTheCall :
    (withStack (List.replicate 15 3) State.reset).stk.length < State.reset.config.stackCap ∧
    State.reset.config.callLink = .next ∧
    (withConfig { defaultConfig with callLink := .self } State.reset).config.callLink = .self := by decide +kernel

theorem witness_PushPopRegisterResult :
    (Instr.pushreg 7).wellFormed State.reset.config ∧ State.reset.stk.length ≠ State.reset.config.stackCap ∧
    full.stk.length = full.config.stackCap ∧ (Instr.popreg 7).wellFormed State.reset.config ∧
    State.reset.stk = [] ∧ (withStack [9, 5] State.reset).wf ∧
    (withStack [9, 5] State.reset).stk = [9] ++ [5] :=
  ⟨by decide +kernel, by decide, by decide, by decide +kernel, rfl, test_wf_stack (by decide), rfl⟩

theorem witness_DataAndReturnAddressesShareTheStack :
    State.reset.wf ∧ (7 : RegIndex).val < State.reset.config.regCount ∧
    State.reset.stk.length < State.reset.config.stackCap :=
  ⟨test_wf_reset, by decide +kernel⟩

theorem witness_StackLaws :
    let two := withConfig { defaultConfig with stackCap := 2 } State.reset
    let none := withConfig { defaultConfig with stackCap := 0 } State.reset
    two.stk = [] ∧ [(1 : Word), 2].length = two.config.stackCap ∧
    none.stk = [] ∧ ([] : List Word).length = none.config.stackCap := by decide +kernel

theorem witness_ClearFlagsResult :
    (withFlags true true true State.reset).wf ∧
    ∃ t, exec .clf (withFlags true true true State.reset) = .next t ∧ t.err = none :=
  ⟨⟨test_default_legal, by decide +kernel⟩, next_of_any (by decide +kernel)⟩

theorem witness_NopResult : defaultConfig.opcodeMap = defaultOpcodeMap := by decide +kernel

/-- Bounds failed, alignment alone failed, and neither, at the edge of a MEM_CAP of 64. -/
theorem witness_BusRead :
    defaultConfig.memCap < 63 + AccessWidth.half.bytes ∧
    ¬defaultConfig.memCap < 61 + AccessWidth.half.bytes ∧ 61 % AccessWidth.half.bytes ≠ 0 ∧
    ¬defaultConfig.memCap < 63 + AccessWidth.byte.bytes ∧ 63 % AccessWidth.byte.bytes = 0 := by decide +kernel

theorem witness_BusWrite :
    State.reset.wf ∧ defaultConfig.memCap < 64 + AccessWidth.word.bytes ∧
    ¬defaultConfig.memCap < 58 + AccessWidth.word.bytes ∧ 58 % AccessWidth.word.bytes ≠ 0 ∧
    ¬defaultConfig.memCap < 60 + AccessWidth.word.bytes ∧ 60 % AccessWidth.word.bytes = 0 :=
  ⟨test_wf_reset, by decide +kernel⟩

theorem witness_WriteThenReadReturnsTheValue :
    State.reset.wf ∧ 62 + AccessWidth.half.bytes ≤ defaultConfig.memCap ∧ 62 % AccessWidth.half.bytes = 0 ∧
    (0xFFFF : Word).toNat < 2 ^ (8 * AccessWidth.half.bytes) ∧
    defaultConfig.memCap < 64 + AccessWidth.word.bytes ∧ 64 % AccessWidth.word.bytes = 0 ∧
    2 + AccessWidth.word.bytes ≤ defaultConfig.memCap ∧ 2 % AccessWidth.word.bytes ≠ 0 :=
  ⟨test_wf_reset, by decide +kernel⟩

theorem witness_MixedWidthsSeeTheSameBytes :
    State.reset.wf ∧ (memWrite State.reset 60 .word 0x12345678).toOption.isSome = true :=
  ⟨test_wf_reset, by decide +kernel⟩

theorem witness_GetRegisterPort :
    State.reset.wf ∧ State.reset.run ≠ .running ∧ 7 < State.reset.config.regCount ∧
    State.reset.config.regCount ≤ 8 ∧ (∀ program, HostCommand.push 1 ≠ .run program) ∧
    hostStep State.reset (.push 1) = some (withStack [1] State.reset, .done) :=
  ⟨test_wf_reset, by decide, by decide, by decide, fun _ h => HostCommand.noConfusion h, by decide +kernel⟩

theorem witness_HostErrorsChangeNothing :
    hostStep State.reset .pop = some (State.reset, .error .stackUnderflow) := by decide +kernel

theorem witness_HostMemoryPorts :
    (running []).run = .running ∧ State.reset.run ≠ .running ∧ memRead State.reset 63 .byte = .ok 0 ∧
    memWrite State.reset 60 .word 0 = .ok State.reset ∧
    memRead State.reset 64 .byte = .error (.memoryOutOfBounds 64 1) ∧
    memWrite State.reset 2 .word 0 = .error (.memoryNotAligned 2 4) := by decide +kernel

theorem witness_HostStackPorts :
    State.reset.run ≠ .running ∧ State.reset.stk = [] ∧ (withStack [4] State.reset).run ≠ .running ∧
    (withStack [4] State.reset).stk = [] ++ [4] := by decide +kernel

theorem witness_DecodeOfEncode :
    defaultConfig.legal ∧ (Instr.ld 7 0xFFFFFFFF).wellFormed defaultConfig ∧
    ({ defaultConfig with regCount := 256 }).legal ∧
    (Instr.add 255 255 255).wellFormed { defaultConfig with regCount := 256 } :=
  ⟨test_default_legal, by decide +kernel, ⟨by decide, by decide, test_default_legal.2.2⟩, by decide +kernel⟩

theorem witness_DecodedBytesAreTheEncoding :
    defaultConfig.legal ∧ decode defaultConfig [0x00, 0x00, 0x15] 2 = .ok .ret :=
  ⟨test_default_legal, by decide +kernel⟩

theorem witness_EncodingIsInjective :
    defaultConfig.legal ∧ encode defaultConfig .nop ++ [] = encode defaultConfig .nop :=
  ⟨test_default_legal, by decide +kernel⟩

theorem witness_OpcodeMapIsABijection :
    defaultConfig.opcodeMap = defaultOpcodeMap ∧ defaultConfig.legal ∧
    ({ defaultConfig with opcodeMap := defaultOpcodeMap.reverse }).legal ∧ Opcode.nop ≠ .hlt ∧
    opcodeOfByte defaultConfig 0x18 = some .clf ∧ (0x18 : Byte).toNat ≤ 0x18 := by decide +kernel

theorem witness_EncodedLengths :
    defaultConfig.legal ∧ 0 < (Instr.hlt).opcode.length ∧ 5 < (Instr.ld 7 0).opcode.length :=
  ⟨test_default_legal, by decide +kernel⟩

theorem witness_UnassignedBytesAreInvalidOpcodes :
    defaultConfig.opcodeMap = defaultOpcodeMap ∧ 0x19 ≤ (0x19 : Byte).toNat ∧ (0x19 : Byte).toNat ≤ 0xFE ∧
    0x19 ≤ (0xFE : Byte).toNat ∧ (0xFE : Byte).toNat ≤ 0xFE ∧ defaultConfig.legal ∧ (0xF0 : Byte) ≠ 0xFF ∧
    (0xF0 : Byte) ∉ defaultConfig.opcodeMap := by decide +kernel

theorem witness_DecoderChecksInOrder :
    [(0x00 : Byte)].length ≤ 1 ∧
    [(0x19 : Byte)][0]? = some 0x19 ∧ opcodeOfByte defaultConfig 0x19 = none ∧
    opcodeOfByte defaultConfig 0x04 = some .add ∧ [(0x04 : Byte), 0, 1].length < 0 + Opcode.add.length ∧
    0 + Opcode.add.length ≤ [(0x04 : Byte), 7, 8, 9].length ∧ 2 ∈ Opcode.add.format.regFields ∧
    (∀ q ∈ Opcode.add.format.regFields, q < 2 →
      ([(0x04 : Byte), 7, 8, 9].getD (0 + q) 0).toNat < defaultConfig.regCount) ∧
    defaultConfig.regCount ≤ ([(0x04 : Byte), 7, 8, 9].getD (0 + 2) 0).toNat ∧
    (∀ q ∈ Opcode.add.format.regFields,
      ([(0x04 : Byte), 7, 7, 7].getD (0 + q) 0).toNat < defaultConfig.regCount) := by decide +kernel

end Sys2Proof.Tests
end

/-! # The invariant of the machine: reset, every step and every host command keep it

`State.wf` is cut into the part an instruction can touch (`State.DataWf`: parameters, registers, flags, memory and
stack) and the part only the sequencer and the host touch (`State.ControlWf`: program buffer, run state, error latch,
step counter). Each operation of the machine is shown once to keep each part. -/

namespace Sys2Proof.Machine

/-! ## The two halves of the invariant -/

/-- The half of `State.wf` about the parameters and what instructions work on (00_scope.md R7, 10_state.md R20, R26,
20_memory.md R60, R79). -/
structure State.DataWf (s : State) : Prop where
  config_legal : s.config.legal
  regs_length : s.regs.length = s.config.regCount
  carry : s.flags.carry = false
  mem_wf : s.mem.wf
  mem_lt : ∀ c ∈ s.mem, c.1 < s.config.memCap
  stk_length : s.stk.length ≤ s.config.stackCap

/-- The half of `State.wf` about the run (00_scope.md R7, 10_state.md R35, 70_reset_and_hazards.md R254). -/
structure State.ControlWf (s : State) : Prop where
  prog_length : s.prog.length < 2 ^ 32
  err_iff : s.err ≠ none ↔ s.run = .faulted
  ready : s.run = .ready → s.prog = [] ∧ s.steps = 0

theorem State.wf_iff {s : State} : s.wf ↔ s.DataWf ∧ s.ControlWf := by
  constructor
  · rintro ⟨hc, hr, hf, hm, hl, hk, hp, he, hy⟩
    exact ⟨⟨hc, hr, hf, hm, hl, hk⟩, ⟨hp, he, hy⟩⟩
  · rintro ⟨⟨hc, hr, hf, hm, hl, hk⟩, ⟨hp, he, hy⟩⟩
    exact ⟨hc, hr, hf, hm, hl, hk, hp, he, hy⟩

/-! ## No flag class writes carry (10_state.md R26) -/

@[simp] theorem flagsArith_carry (res : Word) (w : Bool) (f : Flags) : (flagsArith res w f).carry = f.carry := rfl

@[simp] theorem flagsLogic_carry (res : Word) (f : Flags) : (flagsLogic res f).carry = f.carry := rfl

@[simp] theorem flagsMod_carry (m : ModOvf) (res : Word) (f : Flags) : (flagsMod m res f).carry = f.carry := by
  cases m <;> rfl

@[simp] theorem flagsCompare_carry (a b : Word) (f : Flags) : (flagsCompare a b f).carry = f.carry := rfl

@[simp] theorem flagsClear_carry (f : Flags) : (flagsClear f).carry = f.carry := rfl

/-! ## What the operations keep of the data half -/

theorem construct_dataWf {c : Config} (hc : c.legal) : (State.construct c).DataWf where
  config_legal := hc
  regs_length := List.length_replicate
  carry := rfl
  mem_wf := construct_mem_wf c
  mem_lt := nofun
  stk_length := Nat.zero_le _

namespace State.DataWf

variable {s t : State}

theorem startRun (h : s.DataWf) (program : List Byte) : (startRun s program).DataWf :=
  { construct_dataWf h.config_legal with }

theorem writeReg (h : s.DataWf) (r : RegIndex) (v : Word) : (writeReg s r v).DataWf :=
  { h with regs_length := by simpa using h.regs_length }

theorem setFlags (h : s.DataWf) {f : Flags} (hf : f.carry = s.flags.carry) : (setFlags s f).DataWf :=
  { h with carry := hf.trans h.carry }

theorem takeDraw (h : s.DataWf) : ({ s with draws := s.draws + 1 } : State).DataWf :=
  { h with }

/-- A write lists only cells that were listed before or lie in the range its bounds check has passed
(20_memory.md R61). -/
theorem memWrite {addr : Nat} {w : AccessWidth} {v : Word} (h : s.DataWf) (ht : memWrite s addr w v = .ok t) :
    t.DataWf := by
  have hwf : t.mem.wf := memWrite_wf h.mem_wf ht
  rcases memWrite_cases ht with ⟨-, e⟩ | ⟨-, -, e⟩ | ⟨hbound, -, e⟩ <;> cases e
  refine { h with mem_wf := hwf, mem_lt := fun c hc => ?_ }
  rcases mem_writeLE _ hc with hold | ⟨-, hnew⟩
  · exact h.mem_lt c hold
  · exact hnew.trans_le hbound

theorem memClear (h : s.DataWf) : (memClear s).DataWf :=
  { h with mem_wf := memClear_wf s, mem_lt := nofun }

/-- A push goes onto a stack that is not full (20_memory.md R80). -/
theorem stackPush {v : Word} (h : s.DataWf) (ht : stackPush s v = .ok t) : t.DataWf := by
  rcases stackPush_cases ht with ⟨-, e⟩ | ⟨hfull, e⟩ <;> cases e
  have hroom : s.stk.length < s.config.stackCap := lt_of_le_of_ne h.stk_length hfull
  exact { h with stk_length := by simpa using hroom }

theorem stackPop {v : Word} (h : s.DataWf) (ht : stackPop s = .ok (v, t)) : t.DataWf := by
  rcases stackPop_cases ht with ⟨-, e⟩ | ⟨below, top, hs, e⟩ <;> cases e
  have hlen : (below ++ [v]).length ≤ s.config.stackCap := hs ▸ h.stk_length
  exact { h with stk_length := le_trans (by simp) hlen }

theorem stackClear (h : s.DataWf) : (stackClear s).DataWf :=
  { h with stk_length := Nat.zero_le _ }

theorem raiseError (h : s.DataWf) (e : VmError) : (raiseError s e).DataWf :=
  { h with }

theorem applyTransition (h : s.DataWf) (len : Nat) (tr : Transition) : (applyTransition len s tr).DataWf := by
  cases tr <;> exact { h with }

end State.DataWf

/-! ## What executing an instruction keeps of the data half -/

/-- If an execution answers without error, the data half of the invariant holds of the state it answers. -/
def OkDataWf (x : Execution) : Prop := ∀ u tr, x = .ok (u, tr) → u.DataWf

theorem okDataWf_ok {u : State} (h : u.DataWf) (tr : Transition) : OkDataWf (.ok (u, tr)) := by
  rintro _ _ ⟨⟩
  exact h

theorem okDataWf_error (e : VmError) : OkDataWf (.error e) := by
  rintro _ _ ⟨⟩

theorem sequence_dataWf {s : State} {x : Execution} (h : s.DataWf) (hx : OkDataWf x) (len : Nat) :
    (sequence len s x).DataWf := by
  match x with
  | .error e => exact h.raiseError e
  | .ok (u, tr) => exact (hx u tr rfl).applyTransition len tr

namespace State.DataWf

variable {s : State}

theorem finishArith (h : s.DataWf) (rd : RegIndex) (r : Word × Bool) : OkDataWf (finishArith s rd r) :=
  okDataWf_ok ((h.writeReg rd r.1).setFlags (flagsArith_carry _ _ _)) _

theorem finishLogic (h : s.DataWf) (rd : RegIndex) (res : Word) : OkDataWf (finishLogic s rd res) :=
  okDataWf_ok ((h.writeReg rd res).setFlags (flagsLogic_carry _ _)) _

theorem finishMod (h : s.DataWf) (rd : RegIndex) (res : Word) : OkDataWf (finishMod s rd res) :=
  okDataWf_ok ((h.writeReg rd res).setFlags (flagsMod_carry _ _ _)) _

theorem divZero {finish : State → Word × Bool → Execution} (h : s.DataWf)
    (hfinish : ∀ (u : State) (r : Word × Bool), u.DataWf → OkDataWf (finish u r)) :
    OkDataWf (divZero s finish) := by
  unfold Machine.divZero
  split
  · exact okDataWf_error _
  · exact hfinish _ _ h.takeDraw

end State.DataWf

/-- Every instruction keeps the data half of the invariant. -/
theorem exec_dataWf {i : Instr} {s t : State} (hs : s.DataWf) (h : exec i s = .next t) : t.DataWf := by
  have hi : i.wellFormed s.config := (exec_next_cases h).1
  have keeps {len : Nat} {x : Execution} (hseq : exec i s = .next (sequence len s x)) (hx : OkDataWf x) :
      t.DataWf := by
    obtain rfl : t = sequence len s x := Host.Outcome.next.inj (h.symm.trans hseq)
    exact sequence_dataWf hs hx len
  cases i with
  | nop => exact keeps (exec_nop s) (okDataWf_ok hs _)
  | jmp addr => exact keeps (exec_jmp s addr) (okDataWf_ok hs _)
  | jn addr => exact keeps (exec_jn s addr) (okDataWf_ok hs _)
  | jnn addr => exact keeps (exec_jnn s addr) (okDataWf_ok hs _)
  | jz addr => exact keeps (exec_jz s addr) (okDataWf_ok hs _)
  | hlt => exact keeps (exec_hlt s) (okDataWf_ok hs _)
  | ld rd imm => exact keeps (exec_ld rd imm hi) (okDataWf_ok (hs.writeReg rd imm) _)
  | cmp ra rb => exact keeps (exec_cmp ra rb hi) (okDataWf_ok (hs.setFlags (flagsCompare_carry _ _ _)) _)
  | clf => exact keeps (exec_clf s) (okDataWf_ok (hs.setFlags (flagsClear_carry _)) _)
  | add rd rs1 rs2 => exact keeps (exec_add rd rs1 rs2 hi) (hs.finishArith rd _)
  | sub rd rs1 rs2 => exact keeps (exec_sub rd rs1 rs2 hi) (hs.finishArith rd _)
  | mul rd rs1 rs2 => exact keeps (exec_mul rd rs1 rs2 hi) (hs.finishArith rd _)
  | inc rd => exact keeps (exec_inc rd hi) (hs.finishArith rd _)
  | dec rd => exact keeps (exec_dec rd hi) (hs.finishArith rd _)
  | and rd rs1 rs2 => exact keeps (exec_and rd rs1 rs2 hi) (hs.finishLogic rd _)
  | or rd rs1 rs2 => exact keeps (exec_or rd rs1 rs2 hi) (hs.finishLogic rd _)
  | xor rd rs1 rs2 => exact keeps (exec_xor rd rs1 rs2 hi) (hs.finishLogic rd _)
  | not rd rs => exact keeps (exec_not rd rs hi) (hs.finishLogic rd _)
  | div rd rs1 rs2 =>
    refine keeps (exec_div rd rs1 rs2 hi) ?_
    split
    · exact hs.divZero fun u r hu => hu.finishArith rd r
    · exact hs.finishArith rd _
  | mod rd rs1 rs2 =>
    refine keeps (exec_mod rd rs1 rs2 hi) ?_
    split
    · exact hs.divZero fun u r hu => hu.finishMod rd r.1
    · exact hs.finishMod rd _
  | load rd addr =>
    refine keeps (exec_load rd addr hi) ?_
    split
    · exact okDataWf_error _
    · exact okDataWf_ok (hs.writeReg rd _) _
  | store rs addr =>
    refine keeps (exec_store rs addr hi) ?_
    split
    · exact okDataWf_error _
    · next hw => exact okDataWf_ok (hs.memWrite hw) _
  | call addr =>
    refine keeps (exec_call s addr) ?_
    split
    · exact okDataWf_error _
    · next hp => exact okDataWf_ok (hs.stackPush hp) _
  | pushreg r =>
    refine keeps (exec_pushreg r hi) ?_
    split
    · exact okDataWf_error _
    · next hp => exact okDataWf_ok (hs.stackPush hp) _
  | ret =>
    refine keeps (exec_ret s) ?_
    split
    · exact okDataWf_error _
    · next hp => exact okDataWf_ok (hs.stackPop hp) _
  | popreg r =>
    refine keeps (exec_popreg r hi) ?_
    split
    · exact okDataWf_error _
    · next hp => exact okDataWf_ok ((hs.stackPop hp).writeReg r _) _

/-! ## What the sequencer and the host keep of the control half -/

theorem construct_controlWf (c : Config) : (State.construct c).ControlWf where
  prog_length := by simp [State.construct]
  err_iff := by simp [State.construct]
  ready := fun _ => ⟨rfl, rfl⟩

theorem startRun_controlWf (s : State) {program : List Byte} (h : program.length < 2 ^ 32) :
    (startRun s program).ControlWf where
  prog_length := h
  err_iff := by simp
  ready := nofun

theorem raiseError_controlWf {s : State} (h : s.ControlWf) (e : VmError) : (raiseError s e).ControlWf where
  prog_length := h.prog_length
  err_iff := by simp
  ready := nofun

theorem State.ControlWf.err_of_running {s : State} (h : s.ControlWf) (hr : s.run = .running) : s.err = none := by
  by_contra he
  have hf : s.run = .faulted := h.err_iff.1 he
  exact absurd (hr.symm.trans hf) nofun

theorem Executes.prog_eq {i : Instr} {s u : State} {tr : Transition} (h : Executes i s u tr) : u.prog = s.prog := by
  rw [h.frame]

theorem Executes.run_eq {i : Instr} {s u : State} {tr : Transition} (h : Executes i s u tr) : u.run = s.run := by
  rw [h.frame]

theorem Executes.err_eq {i : Instr} {s u : State} {tr : Transition} (h : Executes i s u tr) : u.err = s.err := by
  rw [h.frame]

/-- An instruction of a Running run that completes leaves the run Running or Halted, with no error. -/
theorem Executes.controlWf {i : Instr} {s u : State} {tr : Transition} (hx : Executes i s u tr)
    (h : s.ControlWf) (hr : s.run = .running) (len : Nat) : (applyTransition len u tr).ControlWf := by
  have herr : (applyTransition len u tr).err = none := by
    rw [applyTransition_err, hx.err_eq, h.err_of_running hr]
  have hrun : (applyTransition len u tr).run = if tr = .halt then .halted else .running := by
    rw [applyTransition_run, hx.run_eq, hr]
  have hlive : (applyTransition len u tr).run ≠ .faulted ∧ (applyTransition len u tr).run ≠ .ready := by
    rw [hrun]
    split <;> simp
  exact
    { prog_length := by simpa [hx.prog_eq] using h.prog_length
      err_iff := iff_of_false (fun hne => hne herr) hlive.1
      ready := fun hready => absurd hready hlive.2 }

/-! ## The invariant -/

theorem construct_wf {c : Config} (hc : c.legal) : (State.construct c).wf :=
  State.wf_iff.2 ⟨construct_dataWf hc, construct_controlWf c⟩

theorem defaultConfig_legal : defaultConfig.legal := by decide

theorem raiseError_wf {s : State} (hs : s.wf) (e : VmError) : (raiseError s e).wf := by
  obtain ⟨hdata, hcontrol⟩ := State.wf_iff.1 hs
  exact State.wf_iff.2 ⟨hdata.raiseError e, raiseError_controlWf hcontrol e⟩

/-- In a Running run every instruction keeps the invariant. -/
theorem exec_wf {i : Instr} {s t : State} (hs : s.wf) (hr : s.run = .running) (h : exec i s = .next t) : t.wf := by
  obtain ⟨hdata, hcontrol⟩ := State.wf_iff.1 hs
  rcases (exec_next_cases h).2 with ⟨e, rfl⟩ | ⟨u, tr, rfl, hx⟩
  · exact raiseError_wf hs e
  · exact State.wf_iff.2 ⟨exec_dataWf hdata h, hx.controlWf hcontrol hr _⟩

/-! ## What a host command can do -/

/-- The effect of a host command that has an answer: the start of a run, one of the writing ports of memory or stack
completing, or none (a reading port, or a port that answers an error, 60_exceptions.md R223). -/
inductive HostEffect (s : State) : HostCommand → State → Prop where
  | started {program : List Byte} (h : program.length < 2 ^ 32) : HostEffect s (.run program) (startRun s program)
  | wrote {address : Nat} {w : AccessWidth} {v : Word} {t : State} (h : memWrite s address w v = .ok t) :
      HostEffect s (.writeMemory address w v) t
  | clearedMemory : HostEffect s .clearMemory (memClear s)
  | pushed {v : Word} {t : State} (h : stackPush s v = .ok t) : HostEffect s (.push v) t
  | popped {v : Word} {t : State} (h : stackPop s = .ok (v, t)) : HostEffect s .pop t
  | clearedStack : HostEffect s .clearStack (stackClear s)
  | unchanged {cmd : HostCommand} : HostEffect s cmd s

/-- A reading port changes no state. -/
theorem hostRead_fst (s : State) (x : Except VmError Word) : (hostRead s x).1 = s := by
  cases x <;> rfl

/-- A writing port leaves the state its operation answers, and on an error the state as it was. -/
theorem hostWrite_cases {s t : State} {x : Except VmError State} {reply : HostReply}
    (h : hostWrite s x = (t, reply)) : t = s ∨ x = .ok t := by
  cases x <;> cases h
  · exact .inl rfl
  · exact .inr rfl

theorem hostStep_effect {s t : State} {cmd : HostCommand} {reply : HostReply}
    (h : hostStep s cmd = some (t, reply)) : HostEffect s cmd t := by
  unfold hostStep at h
  split at h
  · cases h
  cases cmd <;> simp only [Option.some.injEq] at h
  case run program =>
    split at h
    · next hlen => cases h; exact .started hlen
    · cases h
  case writeMemory address w v =>
    rcases hostWrite_cases h with rfl | hw
    · exact .unchanged
    · exact .wrote hw
  case push v =>
    rcases hostWrite_cases h with rfl | hp
    · exact .unchanged
    · exact .pushed hp
  case pop =>
    split at h <;> cases h
    · exact .unchanged
    · next hp => exact .popped hp
  case clearMemory => cases h; exact .clearedMemory
  case clearStack => cases h; exact .clearedStack
  case getRegister | readMemory | peek =>
    obtain rfl : s = t := (hostRead_fst s _).symm.trans (congrArg Prod.fst h)
    exact .unchanged
  case memoryCapacity | stackLength | stackCapacity => cases h; exact .unchanged

/-- A host command other than the start of a run changes at most memory and stack. -/
theorem HostEffect.frame {s t : State} {cmd : HostCommand} (h : HostEffect s cmd t) :
    (∃ program, cmd = .run program) ∨ t = { s with mem := t.mem, stk := t.stk } := by
  cases h with
  | started _ => exact .inl ⟨_, rfl⟩
  | wrote hw => rcases memWrite_cases hw with ⟨-, e⟩ | ⟨-, -, e⟩ | ⟨-, -, e⟩ <;> cases e; exact .inr rfl
  | pushed hp => rcases stackPush_cases hp with ⟨-, e⟩ | ⟨-, e⟩ <;> cases e; exact .inr rfl
  | popped hp => rcases stackPop_cases hp with ⟨-, e⟩ | ⟨_, _, -, e⟩ <;> cases e; exact .inr rfl
  | clearedMemory | clearedStack | unchanged => exact .inr rfl

theorem HostEffect.dataWf {s t : State} {cmd : HostCommand} (h : HostEffect s cmd t) (hs : s.DataWf) :
    t.DataWf := by
  cases h with
  | started _ => exact hs.startRun _
  | wrote hw => exact hs.memWrite hw
  | clearedMemory => exact hs.memClear
  | pushed hp => exact hs.stackPush hp
  | popped hp => exact hs.stackPop hp
  | clearedStack => exact hs.stackClear
  | unchanged => exact hs

theorem HostEffect.controlWf {s t : State} {cmd : HostCommand} (h : HostEffect s cmd t) (hs : s.ControlWf) :
    t.ControlWf := by
  rcases h.frame with ⟨program, rfl⟩ | hframe
  · cases h with
    | started hlen => exact startRun_controlWf s hlen
    | unchanged => exact hs
  · rw [hframe]
    exact { hs with }

/-! ## The obligations -/

/-- Settles O4: a decode error is raised on the state as it was, and a decoded instruction keeps both halves. -/
theorem stepKeepsInvariant : Obligations.StepKeepsInvariant := by
  intro s t hs h
  obtain ⟨hr, ⟨e, -, rfl⟩ | ⟨i, -, hi⟩⟩ := step_next_cases h
  · exact raiseError_wf hs e
  · exact exec_wf hs hr hi

/-- Settles O5: each effect a host command can have keeps both halves. -/
theorem hostCommandKeepsInvariant : Obligations.HostCommandKeepsInvariant := by
  intro s t cmd reply hs h
  obtain ⟨hdata, hcontrol⟩ := State.wf_iff.1 hs
  have heffect : HostEffect s cmd t := hostStep_effect h
  exact State.wf_iff.2 ⟨heffect.dataWf hdata, heffect.controlWf hcontrol⟩

/-- Settles O3: reset is the construction under a legal configuration, and every such construction meets the
invariant. -/
theorem resetSatisfiesInvariant : Obligations.ResetSatisfiesInvariant :=
  construct_wf defaultConfig_legal

end Sys2Proof.Machine

/-! # The state section's statements: what an instruction reads, writes and leaves, and what a step keeps

`execution` names what an instruction answers to the sequencer, so that a fact about every instruction is one case
split. Two such facts carry the section: `execution_ok` (what a completed execution wrote, and its transition) and
`execution_writeReg` (a register the instruction does not name plays no part). -/

namespace Sys2Proof.Machine

/-! ## What an instruction answers to the sequencer -/

/-- What executing an instruction answers (10_state.md R30), apart from the check that its registers exist. -/
def execution (i : Instr) (s : State) : Execution :=
  match i with
  | .nop => .ok (s, .advance)
  | .ld rd imm => .ok (writeReg s rd imm, .advance)
  | .load rd addr =>
    match memRead s (u32 addr) .word with
    | .error e => .error e
    | .ok v => .ok (writeReg s rd v, .advance)
  | .store rs addr =>
    match memWrite s (u32 addr) .word (readReg s rs) with
    | .error e => .error e
    | .ok t => .ok (t, .advance)
  | .add rd rs1 rs2 => finishArith s rd (ovfAdd (readReg s rs1) (readReg s rs2))
  | .sub rd rs1 rs2 => finishArith s rd (ovfSub (readReg s rs1) (readReg s rs2))
  | .mul rd rs1 rs2 => finishArith s rd (ovfMul (readReg s rs1) (readReg s rs2))
  | .div rd rs1 rs2 =>
    if s32 (readReg s rs2) = 0 then divZero s fun s r => finishArith s rd r
    else finishArith s rd (ovfDiv (readReg s rs1) (readReg s rs2))
  | .mod rd rs1 rs2 =>
    if s32 (readReg s rs2) = 0 then divZero s fun s r => finishMod s rd r.1
    else finishMod s rd (ovfRem (readReg s rs1) (readReg s rs2)).1
  | .inc rd => finishArith s rd (ovfAdd (readReg s rd) (bits32 1))
  | .dec rd => finishArith s rd (ovfSub (readReg s rd) (bits32 1))
  | .and rd rs1 rs2 => finishLogic s rd (readReg s rs1 &&& readReg s rs2)
  | .or rd rs1 rs2 => finishLogic s rd (readReg s rs1 ||| readReg s rs2)
  | .xor rd rs1 rs2 => finishLogic s rd (readReg s rs1 ^^^ readReg s rs2)
  | .not rd rs => finishLogic s rd (~~~readReg s rs)
  | .cmp ra rb => .ok (setFlags s (flagsCompare (readReg s ra) (readReg s rb) s.flags), .advance)
  | .jmp addr => .ok (s, .jumpTo addr)
  | .jn addr => .ok (s, if s.flags.negative then .jumpTo addr else .advance)
  | .jnn addr => .ok (s, if !s.flags.negative then .jumpTo addr else .advance)
  | .jz addr => .ok (s, if s.flags.zero then .jumpTo addr else .advance)
  | .call addr =>
    match stackPush s (linkValue s) with
    | .error e => .error e
    | .ok t => .ok (t, .jumpTo addr)
  | .ret =>
    match stackPop s with
    | .error e => .error e
    | .ok (v, t) => .ok (t, .jumpTo v)
  | .pushreg r =>
    match stackPush s (readReg s r) with
    | .error e => .error e
    | .ok t => .ok (t, .advance)
  | .popreg r =>
    match stackPop s with
    | .error e => .error e
    | .ok (v, t) => .ok (writeReg t r v, .advance)
  | .clf => .ok (setFlags s (flagsClear s.flags), .advance)
  | .hlt => .ok (s, .halt)

/-- Every meaning is `issue` of the instruction's opcode, its registers and its execution. -/
theorem exec_eq_issue (i : Instr) (s : State) : exec i s = issue i.opcode i.regs s (execution i) := by
  cases i <;> rfl

theorem exec_of_wellFormed {i : Instr} {s : State} (h : i.wellFormed s.config) :
    exec i s = .next (sequence i.opcode.length s (execution i s)) := by
  rw [exec_eq_issue]
  exact issue_of_regs _ h

theorem exec_next_iff {i : Instr} {s t : State} :
    exec i s = .next t ↔ i.wellFormed s.config ∧ t = sequence i.opcode.length s (execution i s) := by
  rw [exec_eq_issue]
  exact issue_next_iff

/-! ## What a completed execution wrote -/

/-- The transition of an instruction that executes without error (10_state.md R31). -/
def transitionOf (s : State) : Instr → Transition
  | .jmp a | .call a => .jumpTo a
  | .jn a => if s.flags.negative then .jumpTo a else .advance
  | .jnn a => if !s.flags.negative then .jumpTo a else .advance
  | .jz a => if s.flags.zero then .jumpTo a else .advance
  | .ret => .jumpTo (s.stk.getLastD 0)
  | .hlt => .halt
  | .ld _ _ | .load _ _ | .store _ _ | .inc _ | .dec _ | .not _ _ | .cmp _ _ => .advance
  | .add _ _ _ | .sub _ _ _ | .mul _ _ _ | .div _ _ _ | .mod _ _ _ => .advance
  | .and _ _ _ | .or _ _ _ | .xor _ _ _ => .advance
  | .pushreg _ | .popreg _ | .clf | .nop => .advance

/-- The state a completed execution hands to the sequencer, by what the instruction writes: nothing, a register alone,
memory, the stack, the stack and a register, or flags with or without a result (10_state.md R21, 41_arithmetic.md
R151). -/
inductive Completes (s : State) (i : Instr) : State → Prop where
  | untouched (hi : i.opcode ∈ [.nop, .jmp, .jn, .jnn, .jz, .hlt]) : Completes s i s
  | loaded {rd : RegIndex} {v : Word} (hd : destOf i = some rd) : Completes s i (writeReg s rd v)
  | stored {m : Memory} (hi : i.opcode = .store) : Completes s i { s with mem := m }
  | stacked {k : List Word} (hi : i.opcode ∈ [.pushreg, .call, .ret]) : Completes s i { s with stk := k }
  | popped {k : List Word} {rd : RegIndex} {v : Word} (hi : i.opcode = .popreg) (hd : destOf i = some rd) :
      Completes s i (writeReg { s with stk := k } rd v)
  | arith {n : Nat} {rd : RegIndex} {r : Word} {w : Bool} (hi : i.opcode ∈ [.add, .sub, .mul, .div, .inc, .dec])
      (hd : destOf i = some rd) :
      Completes s i (setFlags (writeReg { s with draws := n } rd r) (flagsArith r w s.flags))
  | modulo {n : Nat} {rd : RegIndex} {r : Word} (hi : i.opcode = .mod) (hd : destOf i = some rd) :
      Completes s i (setFlags (writeReg { s with draws := n } rd r) (flagsMod s.config.modOvf r s.flags))
  | logic {rd : RegIndex} {r : Word} (hi : i.opcode ∈ [.and, .or, .xor, .not]) (hd : destOf i = some rd) :
      Completes s i (setFlags (writeReg s rd r) (flagsLogic r s.flags))
  | compared {a b : Word} (hi : i.opcode = .cmp) : Completes s i (setFlags s (flagsCompare a b s.flags))
  | cleared (hi : i.opcode = .clf) : Completes s i (setFlags s (flagsClear s.flags))

/-- A division by zero that completes is the finish of a draw, on the state with the draw counted. -/
theorem divZero_ok {s : State} {finish : State → Word × Bool → Execution} {x : State × Transition}
    (h : divZero s finish = .ok x) : ∃ n r, finish { s with draws := n } r = .ok x := by
  unfold divZero at h
  split at h
  · cases h
  · exact ⟨_, _, h⟩

/-- What a completed execution wrote, and the transition it answers. -/
theorem execution_ok {i : Instr} {s u : State} {tr : Transition} (h : execution i s = .ok (u, tr)) :
    Completes s i u ∧ tr = transitionOf s i := by
  cases i with
  | nop | jmp _ | jn _ | jnn _ | jz _ | hlt => cases h; exact ⟨.untouched (by simp [Instr.opcode]), rfl⟩
  | ld rd imm => cases h; exact ⟨.loaded rfl, rfl⟩
  | cmp ra rb => cases h; exact ⟨.compared rfl, rfl⟩
  | clf => cases h; exact ⟨.cleared rfl, rfl⟩
  | add _ _ _ | sub _ _ _ | mul _ _ _ | inc _ | dec _ =>
    cases h
    exact ⟨.arith (n := s.draws) (by simp [Instr.opcode]) rfl, rfl⟩
  | and _ _ _ | or _ _ _ | xor _ _ _ | not _ _ => cases h; exact ⟨.logic (by simp [Instr.opcode]) rfl, rfl⟩
  | div rd rs1 rs2 =>
    simp only [execution] at h
    split at h
    · obtain ⟨n, r, h⟩ := divZero_ok h
      cases h
      exact ⟨.arith (by simp [Instr.opcode]) rfl, rfl⟩
    · cases h
      exact ⟨.arith (n := s.draws) (by simp [Instr.opcode]) rfl, rfl⟩
  | mod rd rs1 rs2 =>
    simp only [execution] at h
    split at h
    · obtain ⟨n, r, h⟩ := divZero_ok h
      cases h
      exact ⟨.modulo rfl rfl, rfl⟩
    · cases h
      exact ⟨.modulo (n := s.draws) rfl rfl, rfl⟩
  | load rd addr =>
    simp only [execution] at h
    split at h <;> cases h
    exact ⟨.loaded rfl, rfl⟩
  | store rs addr =>
    simp only [execution] at h
    split at h <;> cases h
    next hw =>
      rcases memWrite_cases hw with ⟨-, e⟩ | ⟨-, -, e⟩ | ⟨-, -, e⟩ <;> cases e
      exact ⟨.stored rfl, rfl⟩
  | call _ | pushreg _ =>
    simp only [execution] at h
    split at h <;> cases h
    next hp =>
      rcases stackPush_cases hp with ⟨-, e⟩ | ⟨-, e⟩ <;> cases e
      exact ⟨.stacked (by simp [Instr.opcode]), rfl⟩
  | ret =>
    simp only [execution] at h
    split at h <;> cases h
    next hp =>
      rcases stackPop_cases hp with ⟨-, e⟩ | ⟨below, v, hs, e⟩ <;> cases e
      exact ⟨.stacked (by simp [Instr.opcode]), by simp [transitionOf, hs]⟩
  | popreg r =>
    simp only [execution] at h
    split at h <;> cases h
    next hp =>
      rcases stackPop_cases hp with ⟨-, e⟩ | ⟨below, v, hs, e⟩ <;> cases e
      exact ⟨.popped rfl rfl, rfl⟩

/-- What an instruction's next state is: the error taken on the state as it was, or the instruction's transition
applied to what it wrote. -/
theorem exec_next_completes {i : Instr} {s t : State} (h : exec i s = .next t) :
    (∃ e, t = raiseError s e) ∨
      ∃ u, Completes s i u ∧ t = applyTransition i.opcode.length u (transitionOf s i) := by
  obtain ⟨-, rfl⟩ := exec_next_iff.1 h
  cases hx : execution i s with
  | error e => exact .inl ⟨e, rfl⟩
  | ok x =>
    obtain ⟨u, tr⟩ := x
    obtain ⟨hu, rfl⟩ := execution_ok hx
    exact .inr ⟨u, hu, rfl⟩

namespace Completes

variable {s u : State} {i : Instr}

theorem pc_eq (h : Completes s i u) : u.pc = s.pc := by cases h <;> rfl

theorem err_eq (h : Completes s i u) : u.err = s.err := by cases h <;> rfl

/-- R21: a register that is not the destination is not written. -/
theorem readReg_eq {r : RegIndex} (h : Completes s i u) (hr : destOf i ≠ some r) : readReg u r = readReg s r := by
  have other {u' : State} {rd : RegIndex} {v : Word} (hd : destOf i = some rd) (hu : u'.regs = s.regs.set rd.val v) :
      readReg u' r = readReg s r := by
    have hne : r ≠ rd := fun e => hr (e ▸ hd)
    calc readReg u' r = readReg (writeReg s rd v) r := readReg_congr hu r
      _ = readReg s r := readReg_writeReg_of_ne v hne
  cases h with
  | untouched | stored | stacked | compared | cleared => rfl
  | loaded hd | popped _ hd | arith _ hd | modulo _ hd | logic _ hd => exact other hd rfl

theorem mem_eq (h : Completes s i u) (hi : i.opcode ≠ .store) : u.mem = s.mem := by
  cases h with
  | stored hs => exact absurd hs hi
  | _ => rfl

theorem stk_eq (h : Completes s i u) (hi : i.opcode ∉ [.pushreg, .popreg, .call, .ret]) : u.stk = s.stk := by
  cases h with
  | stacked hs | popped hs => exact (hi (by simp_all)).elim
  | _ => rfl

/-- R27: the classes ARITH, MODC, LOGIC, CMPC and CLR write zero. -/
theorem zero_eq (h : Completes s i u)
    (hi : i.opcode ∉ [.add, .sub, .mul, .div, .mod, .inc, .dec, .and, .or, .xor, .not, .cmp, .clf]) :
    u.flags.zero = s.flags.zero := by
  cases h with
  | arith hs | modulo hs | logic hs | compared hs | cleared hs => exact (hi (by simp_all)).elim
  | _ => rfl

/-- R27: the classes ARITH, MODC, LOGIC and CLR write negative. -/
theorem negative_eq (h : Completes s i u)
    (hi : i.opcode ∉ [.add, .sub, .mul, .div, .mod, .inc, .dec, .and, .or, .xor, .not, .clf]) :
    u.flags.negative = s.flags.negative := by
  cases h with
  | arith hs | modulo hs | logic hs | cleared hs => exact (hi (by simp_all)).elim
  | _ => rfl

/-- R27: the classes ARITH and CLR write overflow, and MODC does under MOD_OVF = CLEAR. -/
theorem overflow_eq (h : Completes s i u) (hi : i.opcode ∉ [.add, .sub, .mul, .div, .inc, .dec, .clf])
    (hmod : i.opcode = .mod → s.config.modOvf = .keep) : u.flags.overflow = s.flags.overflow := by
  cases h with
  | arith hs | cleared hs => exact (hi (by simp_all)).elim
  | modulo hs => simp [hmod hs, flagsMod]
  | _ => rfl

end Completes

/-! ## A register the instruction does not name -/

/-- The same answer with register `r` holding `v`. -/
def withReg (r : RegIndex) (v : Word) (x : Execution) : Execution := x.map fun p => (writeReg p.1 r v, p.2)

@[simp] theorem withReg_ok (r : RegIndex) (v : Word) (u : State) (tr : Transition) :
    withReg r v (.ok (u, tr)) = .ok (writeReg u r v, tr) := rfl

@[simp] theorem withReg_error (r : RegIndex) (v : Word) (e : VmError) : withReg r v (.error e) = .error e := rfl

theorem sequence_withReg (n : Nat) (s : State) (r : RegIndex) (v : Word) (x : Execution) :
    sequence n (writeReg s r v) (withReg r v x) = writeReg (sequence n s x) r v := by
  match x with
  | .error e => rfl
  | .ok (u, tr) => cases tr <;> rfl

section

variable {r rd : RegIndex}

theorem writeReg_comm (s : State) (v w : Word) (h : rd ≠ r) :
    writeReg (writeReg s r v) rd w = writeReg (writeReg s rd w) r v := by
  have hval : r.val ≠ rd.val := fun e => h (Fin.ext e.symm)
  simp only [writeReg, List.set_comm v w hval]

theorem finishArith_writeReg (s : State) (v : Word) (x : Word × Bool) (h : rd ≠ r) :
    finishArith (writeReg s r v) rd x = withReg r v (finishArith s rd x) := by
  simp only [finishArith, writeReg_comm s v x.1 h]
  rfl

theorem finishLogic_writeReg (s : State) (v res : Word) (h : rd ≠ r) :
    finishLogic (writeReg s r v) rd res = withReg r v (finishLogic s rd res) := by
  simp only [finishLogic, writeReg_comm s v res h]
  rfl

theorem finishMod_writeReg (s : State) (v res : Word) (h : rd ≠ r) :
    finishMod (writeReg s r v) rd res = withReg r v (finishMod s rd res) := by
  simp only [finishMod, writeReg_comm s v res h]
  rfl

theorem divZero_writeReg {finish : State → Word × Bool → Execution} (s : State) (v : Word)
    (h : ∀ u x, finish (writeReg u r v) x = withReg r v (finish u x)) :
    divZero (writeReg s r v) finish = withReg r v (divZero s finish) := by
  unfold divZero
  rw [writeReg_config]
  split
  · rfl
  · exact h { s with draws := s.draws + 1 } _

theorem memRead_writeReg (s : State) (v : Word) (addr : Nat) (w : AccessWidth) :
    memRead (writeReg s r v) addr w = memRead s addr w := rfl

theorem memWrite_writeReg (s : State) (v : Word) (addr : Nat) (w : AccessWidth) (x : Word) :
    memWrite (writeReg s r v) addr w x = (memWrite s addr w x).map (writeReg · r v) := by
  unfold memWrite
  rw [writeReg_config]
  split <;> rfl

theorem stackPush_writeReg (s : State) (v x : Word) :
    stackPush (writeReg s r v) x = (stackPush s x).map (writeReg · r v) := by
  unfold stackPush
  rw [writeReg_config, writeReg_stk]
  split <;> rfl

theorem stackPop_writeReg (s : State) (v : Word) :
    stackPop (writeReg s r v) = (stackPop s).map fun p => (p.1, writeReg p.2 r v) := by
  unfold stackPop
  rw [writeReg_stk]
  split <;> rfl

end

/-- The destination is one of the registers the instruction names. -/
theorem mem_regs_of_destOf {i : Instr} {rd : RegIndex} (h : destOf i = some rd) : rd ∈ i.regs := by
  cases i <;> cases h <;> exact List.mem_cons_self

/-- R21: what an instruction answers does not depend on a register it does not name, and it leaves that register. -/
theorem execution_writeReg {i : Instr} {r : RegIndex} (s : State) (v : Word) (hr : r ∉ i.regs) :
    execution i (writeReg s r v) = withReg r v (execution i s) := by
  have source : ∀ q ∈ i.regs, readReg (writeReg s r v) q = readReg s q := fun q hq =>
    readReg_writeReg_of_ne v (ne_of_mem_of_not_mem hq hr)
  have dest {rd : RegIndex} (hd : destOf i = some rd) : rd ≠ r := ne_of_mem_of_not_mem (mem_regs_of_destOf hd) hr
  cases i with
  | nop | jmp _ | jn _ | jnn _ | jz _ | clf | hlt => rfl
  | ld rd imm => simp only [execution, writeReg_comm s v imm (dest rfl), withReg_ok]
  | add rd _ _ | sub rd _ _ | mul rd _ _ | inc rd | dec rd =>
    simp [Instr.regs] at source
    simp [execution, source, finishArith_writeReg s v _ (dest rfl)]
  | and rd _ _ | or rd _ _ | xor rd _ _ | not rd _ =>
    simp [Instr.regs] at source
    simp [execution, source, finishLogic_writeReg s v _ (dest rfl)]
  | cmp ra rb =>
    simp only [execution, source ra (by simp [Instr.regs]), source rb (by simp [Instr.regs])]
    rfl
  | div rd rs1 rs2 =>
    simp only [execution]
    rw [source rs1 (by simp [Instr.regs]), source rs2 (by simp [Instr.regs])]
    split
    · exact divZero_writeReg s v fun u x => finishArith_writeReg u v x (dest rfl)
    · exact finishArith_writeReg s v _ (dest rfl)
  | mod rd rs1 rs2 =>
    simp only [execution]
    rw [source rs1 (by simp [Instr.regs]), source rs2 (by simp [Instr.regs])]
    split
    · exact divZero_writeReg s v fun u x => finishMod_writeReg u v x.1 (dest rfl)
    · exact finishMod_writeReg s v _ (dest rfl)
  | load rd addr =>
    simp only [execution, memRead_writeReg]
    split
    · rfl
    · simp only [writeReg_comm s v _ (dest rfl), withReg_ok]
  | store rs addr =>
    simp only [execution, memWrite_writeReg, source rs (by simp [Instr.regs])]
    cases memWrite s (u32 addr) .word (readReg s rs) <;> rfl
  | call addr =>
    have hlink : linkValue (writeReg s r v) = linkValue s := rfl
    simp only [execution, hlink, stackPush_writeReg]
    cases stackPush s (linkValue s) <;> rfl
  | ret =>
    simp only [execution, stackPop_writeReg]
    cases stackPop s <;> rfl
  | pushreg q =>
    simp only [execution, stackPush_writeReg, source q (by simp [Instr.regs])]
    cases stackPush s (readReg s q) <;> rfl
  | popreg rd =>
    simp only [execution, stackPop_writeReg]
    match stackPop s with
    | .error _ => rfl
    | .ok (w, t) => simp only [Except.map, withReg_ok, writeReg_comm t v w (dest rfl)]

/-! ## The obligations about every instruction -/

/-- Settles O18: a completed execution writes at most its destination, and the sequencer and the error path leave
every register; the noninterference half is `execution_writeReg` carried through the sequencer. -/
theorem unnamedRegistersPlayNoPart : Obligations.UnnamedRegistersPlayNoPart := by
  intro i s t h
  constructor
  · intro r hr
    rcases exec_next_completes h with ⟨e, rfl⟩ | ⟨u, hu, rfl⟩
    · exact readReg_congr (raiseError_regs s e) r
    · exact (readReg_congr (applyTransition_regs _ u _) r).trans (hu.readReg_eq hr)
  · intro r v hr
    obtain ⟨hi, rfl⟩ := exec_next_iff.1 h
    refine exec_next_iff.2 ⟨hi, ?_⟩
    rw [execution_writeReg s v hr, sequence_withReg]

/-- Settles O9: the only check before the sequencer is that of the registers. -/
theorem onlyMissingRegistersAreRefused : Obligations.OnlyMissingRegistersAreRefused := by
  intro i s
  constructor
  · exact fun hi => ⟨_, exec_of_wellFormed hi⟩
  · intro hi
    rw [exec_eq_issue]
    exact issue_of_not_regs _ hi

/-- Settles O19: an error leaves the flags, and each flag class writes its own flags. -/
theorem flagsOnlyTheirInstructionsWrite : Obligations.FlagsOnlyTheirInstructionsWrite := by
  intro i s t h
  rcases exec_next_completes h with ⟨e, rfl⟩ | ⟨u, hu, rfl⟩
  · exact ⟨fun _ => rfl, fun _ => rfl, fun _ _ => rfl⟩
  · rw [applyTransition_flags]
    exact ⟨hu.zero_eq, hu.negative_eq, hu.overflow_eq⟩

/-- Settles O21: an error leaves memory and stack, and a completed execution writes them for the named instructions
alone. -/
theorem memoryAndStackOnlyTheirInstructionsWrite : Obligations.MemoryAndStackOnlyTheirInstructionsWrite := by
  intro i s t h
  rcases exec_next_completes h with ⟨e, rfl⟩ | ⟨u, hu, rfl⟩
  · exact ⟨fun _ _ => rfl, fun _ => rfl⟩
  · rw [applyTransition_mem, applyTransition_stk]
    exact ⟨fun hi a => by rw [hu.mem_eq hi], hu.stk_eq⟩

/-! ## The pc after an instruction -/

/-- The sequencer's pc depends on the pc alone. -/
theorem applyTransition_pc_congr {s u : State} (n : Nat) (tr : Transition) (h : u.pc = s.pc) :
    (applyTransition n u tr).pc = (applyTransition n s tr).pc := by
  cases tr <;> simp [h]

/-- The pc of R31 is the one the instruction's transition gives. -/
theorem applyTransition_transitionOf_pc (s : State) (i : Instr) :
    (applyTransition i.opcode.length s (transitionOf s i)).pc = nextPc s i := by
  cases i with
  | jn a | jnn a => cases hn : s.flags.negative <;> simp [transitionOf, nextPc, hn]
  | jz a => cases hz : s.flags.zero <;> simp [transitionOf, nextPc, hz]
  | _ => rfl

theorem transitionOf_eq_advance {s : State} {i : Instr} (h : Advances s i) : transitionOf s i = .advance := by
  cases i with
  | jmp _ | call _ | ret | hlt => exact h.elim
  | jn _ | jnn _ | jz _ => simp only [Advances] at h; simp [transitionOf, h]
  | _ => rfl

/-- An error latched by an instruction is new where none was latched before it. -/
theorem exec_next_of_err_none {i : Instr} {s t : State} (h : exec i s = .next t) (ht : t.err = none) :
    ∃ u, Completes s i u ∧ t = applyTransition i.opcode.length u (transitionOf s i) := by
  rcases exec_next_completes h with ⟨e, rfl⟩ | hu
  · cases ht
  · exact hu

/-- R31: the pc after an instruction that executes without error. -/
theorem exec_pc_of_err_none {i : Instr} {s t : State} (h : exec i s = .next t) (ht : t.err = none) :
    t.pc = nextPc s i := by
  obtain ⟨u, hu, rfl⟩ := exec_next_of_err_none h ht
  rw [applyTransition_pc_congr _ _ hu.pc_eq, applyTransition_transitionOf_pc]

/-- Settles O16: the pc is the one of the transition, Halt stops the run, and an error leaves the pc. -/
theorem transitionUpdatesPcOnce : Obligations.TransitionUpdatesPcOnce := by
  intro i s t hs h
  refine ⟨fun ht => ⟨exec_pc_of_err_none h ht, ?_⟩, fun ht => ?_⟩
  · rintro rfl
    obtain ⟨u, -, rfl⟩ := exec_next_of_err_none h ht
    rfl
  · rcases exec_next_completes h with ⟨e, rfl⟩ | ⟨u, hu, rfl⟩
    · rfl
    · rw [applyTransition_err, hu.err_eq, hs] at ht
      exact absurd rfl ht

end Sys2Proof.Machine

/-! # What the decoder answers: registers that exist and bytes within the program -/

namespace Sys2Proof

/-- No instruction is empty (30_encoding.md R101). -/
theorem Opcode.length_pos (op : Opcode) : 0 < op.length := by
  cases op <;> decide

/-- Operand extraction keeps the opcode. -/
@[simp] theorem assemble_opcode (op : Opcode) (b : Nat → Byte) : (assemble op b).opcode = op := by
  cases op <;> rfl

/-- The registers of an assembled instruction are its format's register fields (30_encoding.md R110, R114). -/
theorem assemble_regs (op : Opcode) (b : Nat → Byte) :
    (assemble op b).regs = op.format.regFields.map fun p => regOfByte (b p) := by
  cases op <;> rfl

/-- What a decode that answers an instruction has checked (30_encoding.md R109). -/
theorem decodeSlice_eq_ok {c : Config} {slice : List Byte} {i : Instr} (h : decodeSlice c slice = .ok i) :
    ∃ op, op.length ≤ slice.length ∧ badRegister c op (slice.getD · 0) = none ∧
      i = assemble op (slice.getD · 0) := by
  match slice with
  | [] => cases h
  | b0 :: rest =>
    cases hop : opcodeOfByte c b0 with
    | none => rw [decodeSlice_of_none hop] at h; cases h
    | some op =>
      rw [decodeSlice_cons hop] at h
      split at h
      · cases h
      · next hlen =>
        split at h
        · cases h
        · next hbad =>
          cases h
          exact ⟨op, Nat.le_of_not_lt hlen, hbad, rfl⟩

/-- Fields that pass the register check are below REG_COUNT (30_encoding.md R110). -/
theorem lt_regCount_of_badRegister_eq_none {c : Config} {op : Opcode} {b : Nat → Byte}
    (h : badRegister c op b = none) : ∀ p ∈ op.format.regFields, (b p).toNat < c.regCount := by
  simpa [badRegister] using h

/-- R22: a decoded instruction names only registers that exist. -/
theorem wellFormed_of_decode {c : Config} {prog : List Byte} {pc : Nat} {i : Instr}
    (h : decode c prog pc = .ok i) : i.wellFormed c := by
  obtain ⟨op, -, hbad, rfl⟩ := decodeSlice_eq_ok h
  intro r hr
  rw [assemble_regs] at hr
  obtain ⟨p, hp, rfl⟩ := List.mem_map.1 hr
  exact lt_regCount_of_badRegister_eq_none hbad p hp

/-- A decoded instruction lies within the program (30_encoding.md R108). -/
theorem length_le_of_decode {c : Config} {prog : List Byte} {pc : Nat} {i : Instr}
    (h : decode c prog pc = .ok i) : pc + i.opcode.length ≤ prog.length := by
  obtain ⟨op, hlen, -, rfl⟩ := decodeSlice_eq_ok h
  have hpos := op.length_pos
  rw [List.length_drop] at hlen
  rw [assemble_opcode]
  omega

/-- At and beyond the program's end there is nothing to decode (30_encoding.md R108). -/
theorem decode_of_length_le (c : Config) {prog : List Byte} {pc : Nat} (h : prog.length ≤ pc) :
    decode c prog pc = .error .invalidInstruction := by
  rw [decode, List.drop_eq_nil_of_le h, decodeSlice_nil]

end Sys2Proof

/-! # The step, the run state and the host's register port -/

namespace Sys2Proof.Machine

/-! ## The step -/

theorem step_of_decode_ok {s : State} {i : Instr} (hr : s.run = .running)
    (h : decode s.config s.prog s.pc.toNat = .ok i) : step s = exec i s := by
  have hf : fetch s = .ok i := h
  simp only [step_of_running hr, hf]

theorem step_of_decode_error {s : State} {e : VmError} (hr : s.run = .running)
    (h : decode s.config s.prog s.pc.toNat = .error e) : step s = .next (raiseError s e) := by
  have hf : fetch s = .error e := h
  simp only [step_of_running hr, hf]

theorem Executes.config_eq {i : Instr} {s u : State} {tr : Transition} (h : Executes i s u tr) :
    u.config = s.config := by
  rw [h.frame]

theorem Executes.steps_eq {i : Instr} {s u : State} {tr : Transition} (h : Executes i s u tr) :
    u.steps = s.steps := by
  rw [h.frame]

/-- In a Running run an instruction that completes leaves the run Running, or Halted (10_state.md R31). -/
theorem Executes.applyTransition_run {i : Instr} {s u : State} {tr : Transition} (h : Executes i s u tr)
    (hr : s.run = .running) (n : Nat) :
    (applyTransition n u tr).run = if tr = .halt then .halted else .running := by
  rw [Machine.applyTransition_run, h.run_eq, hr]

/-- No instruction writes the program buffer or the parameters (20_memory.md R77, 00_scope.md R7). -/
theorem exec_prog_config {i : Instr} {s t : State} (h : exec i s = .next t) :
    t.prog = s.prog ∧ t.config = s.config := by
  rcases (exec_next_cases h).2 with ⟨e, rfl⟩ | ⟨u, tr, rfl, hx⟩
  · exact ⟨rfl, rfl⟩
  · simp [hx.prog_eq, hx.config_eq]

/-- What a step leaves: the state with an error taken, or what a completed instruction hands to the sequencer. -/
theorem step_next_outcome {s t : State} (h : step s = .next t) :
    s.run = .running ∧
      ((∃ e, t = raiseError s e) ∨
       (∃ i u tr, t = applyTransition i.opcode.length u tr ∧ Executes i s u tr)) := by
  obtain ⟨hr, ⟨e, -, rfl⟩ | ⟨i, -, hi⟩⟩ := step_next_cases h
  · exact ⟨hr, .inl ⟨e, rfl⟩⟩
  · exact ⟨hr, (exec_next_cases hi).2.imp_right fun hx => ⟨i, hx⟩⟩

/-- Settles O6: a decoded instruction has passed the register check and is executed; a decode error is taken. -/
theorem stepRunsTheDecodedInstruction : Obligations.StepRunsTheDecodedInstruction := fun _ hr =>
  ⟨fun _ hi => ⟨wellFormed_of_decode hi, step_of_decode_ok hr hi⟩, fun _ he => step_of_decode_error hr he⟩

/-- Settles O8: the decode answers an error, which is taken, or an instruction whose registers exist, which
completes. -/
theorem everyRunningStepCompletes : Obligations.EveryRunningStepCompletes := by
  intro s hr
  cases hd : decode s.config s.prog s.pc.toNat with
  | error e => exact ⟨_, step_of_decode_error hr hd⟩
  | ok i => exact ⟨_, (step_of_decode_ok hr hd).trans (exec_of_wellFormed (wellFormed_of_decode hd))⟩

/-- Settles O13: taking an error counts nothing and ends Faulted; the sequencer counts one and does not. -/
theorem stepsCountsCompletedInstructions : Obligations.StepsCountsCompletedInstructions := by
  intro s t _ h
  obtain ⟨hr, ⟨e, rfl⟩ | ⟨i, u, tr, rfl, hx⟩⟩ := step_next_outcome h
  · simp
  · have hlive : (applyTransition i.opcode.length u tr).run ≠ .faulted := by
      rw [hx.applyTransition_run hr]
      split <;> simp
    rw [if_neg hlive, applyTransition_steps, hx.steps_eq]

/-- Settles O15: neither the decode nor an instruction writes what the decoder reads. -/
theorem stepKeepsProgramAndParameters : Obligations.StepKeepsProgramAndParameters := by
  intro s t h
  have hkeeps : t.prog = s.prog ∧ t.config = s.config := by
    obtain ⟨-, ⟨e, -, rfl⟩ | ⟨i, -, hi⟩⟩ := step_next_cases h
    · exact ⟨rfl, rfl⟩
    · exact exec_prog_config hi
  obtain ⟨hprog, hconfig⟩ := hkeeps
  exact ⟨hprog, hconfig, fun pc => by rw [hprog, hconfig]⟩

/-! ## Advance and the program's end -/

/-- R32: the offset after a decoded instruction is at most PROG_LEN, so a 32-bit sum reaches it exactly. -/
theorem toNat_add_length_of_decode {c : Config} {prog : List Byte} {pc : Word} {i : Instr}
    (hprog : prog.length < 2 ^ 32) (h : decode c prog pc.toNat = .ok i) :
    (pc + BitVec.ofNat 32 i.opcode.length).toNat = pc.toNat + i.opcode.length := by
  have hend := length_le_of_decode h
  rw [BitVec.toNat_add, BitVec.toNat_ofNat]
  omega

/-- Settles O17: a decoded instruction ends within the program, whose length fits in 32 bits; at and beyond the
program's end the decode answers the error that the next step takes. -/
theorem advanceNeverWraps : Obligations.AdvanceNeverWraps := by
  refine ⟨?_, fun c _ _ => decode_of_length_le c, fun s a _ => ⟨_, exec_jmp s a, rfl, rfl⟩, ?_⟩
  · intro s t i hs hd hadv h ht
    have hprog : s.prog.length < 2 ^ 32 := (State.wf_iff.1 hs).2.prog_length
    rw [step_of_decode_ok (step_next_cases h).1 hd] at h
    obtain ⟨u, hu, rfl⟩ := exec_next_of_err_none h ht
    rw [transitionOf_eq_advance hadv, applyTransition_advance_pc, hu.pc_eq]
    exact toNat_add_length_of_decode hprog hd
  · intro i s t h hr hend
    rw [← (exec_prog_config h).1] at hend
    exact step_of_decode_error hr (decode_of_length_le t.config hend)

/-! ## The run state and the outcome -/

/-- No step leads to Ready (10_state.md R34). -/
theorem step_run_ne_ready {s t : State} (h : step s = .next t) : t.run ≠ .ready := by
  obtain ⟨hr, ⟨e, rfl⟩ | ⟨i, u, tr, rfl, hx⟩⟩ := step_next_outcome h
  · simp
  · rw [hx.applyTransition_run hr]
    split <;> simp

/-- Settles O7: a step is taken in a Running run alone and never leads to Ready, and of the host's effects only the
start of a run is not framed to memory and stack. -/
theorem onlyANewRunLeavesAnEndedRun : Obligations.OnlyANewRunLeavesAnEndedRun := by
  refine ⟨fun s t hr h => hr (step_next_cases h).1, fun s t => step_run_ne_ready, ?_⟩
  intro s t cmd reply h
  have heffect : HostEffect s cmd t := hostStep_effect h
  rcases heffect.frame with ⟨program, rfl⟩ | hframe
  · cases heffect with
    | started _ => exact .inr ⟨rfl, program, rfl⟩
    | unchanged => exact .inl rfl
  · exact .inl (by rw [hframe])

/-- Settles O14: in a good state the error latch is set exactly when the run is Faulted. -/
theorem outcomeIsBinary : Obligations.OutcomeIsBinary := by
  intro s hs
  have herr : s.err ≠ none ↔ s.run = .faulted := (State.wf_iff.1 hs).2.err_iff
  refine ⟨fun hr => by simp [runOutcome, hr], fun hr => ?_, ?_⟩
  · obtain ⟨e, he⟩ := Option.ne_none_iff_exists'.1 (herr.2 hr)
    exact ⟨e, he, by simp [runOutcome, hr, he]⟩
  · rintro (hr | hr) <;> simp [runOutcome, hr]

/-! ## The host's register port -/

theorem hostStep_getRegister {s : State} (hr : s.run ≠ .running) (index : Nat) :
    hostStep s (.getRegister index) = some (hostRead s (getRegister s index)) := if_neg hr

/-- Settles O47: the port reads within the file, whose size is REG_COUNT, or answers its error; the other ports are
framed to memory and stack. -/
theorem getRegisterPort : Obligations.GetRegisterPort := by
  refine ⟨fun s index hs hr => ⟨fun hi => ?_, fun hi => ?_⟩, fun s t cmd reply hcmd h => ?_⟩
  · have hlen : index < s.regs.length := (State.wf_iff.1 hs).1.regs_length ▸ hi
    have hget : getRegister s index = .ok s.regs[index] := by simp [getRegister, hi, hlen]
    exact ⟨s.regs[index], List.getElem?_eq_getElem hlen, by rw [hostStep_getRegister hr, hget]; rfl⟩
  · have hget : getRegister s index = .error (.invalidRegister index) := if_neg (Nat.not_lt.2 hi)
    rw [hostStep_getRegister hr, hget]
    rfl
  · rcases (hostStep_effect h).frame with ⟨program, rfl⟩ | hframe
    · exact absurd rfl (hcmd program)
    · rw [hframe]

end Sys2Proof.Machine

/-! # The memory section's statements: the bus, the stack manager and their host ports

The bus: a little-endian read is settled by its bits (`getLsbD_readLE`), so a read inside what a write stored is the
matching slice of the value (`memRead_within_write`), whatever the two widths. The stack: a push and a pop each have one
equation per case, and sequences of them follow by induction on the values. -/

namespace Sys2Proof.Machine

/-! ## The value of a little-endian read -/

/-- Bit i of an n-byte read is bit `i % 8` of the byte `i / 8` places up (20_memory.md R63), and 0 above the n bytes
(R69). -/
theorem getLsbD_readLE (m : Memory) (n : Nat) : ∀ (addr : Nat) {i : Nat}, i < 32 →
    (readLE m addr n).getLsbD i = (decide (i < 8 * n) && (readByte m (addr + i / 8)).getLsbD (i % 8)) := by
  induction n with
  | zero => intro addr i _; simp [readLE]
  | succ n ih =>
    intro addr i hi
    rw [readLE, BitVec.getLsbD_or, BitVec.getLsbD_shiftLeft, BitVec.getLsbD_setWidth]
    by_cases hlow : i < 8
    · have hn : i < 8 * (n + 1) := by omega
      simp [hi, hlow, hn, Nat.div_eq_of_lt hlow, Nat.mod_eq_of_lt hlow]
    · have hplace : addr + 1 + (i - 8) / 8 = addr + i / 8 := by omega
      have hbit : (i - 8) % 8 = i % 8 := by omega
      have hn : i - 8 < 8 * n ↔ i < 8 * (n + 1) := by omega
      rw [ih _ (by omega), hplace, hbit]
      simp [hi, hlow, hn, BitVec.getLsbD_of_ge _ _ (Nat.le_of_not_lt hlow)]

theorem extractLsb'_readLE (m : Memory) (addr : Nat) {n k : Nat} (hk : k < n) (hn : n ≤ 4) :
    (readLE m addr n).extractLsb' (8 * k) 8 = readByte m (addr + k) := by
  ext i hi
  have hplace : (8 * k + i) / 8 = k := by omega
  have hbit : (8 * k + i) % 8 = i := by omega
  have hin : 8 * k + i < 8 * n := by omega
  rw [BitVec.getElem_extractLsb', getLsbD_readLE m n addr (by omega), hplace, hbit]
  simp [hin, BitVec.getLsbD_eq_getElem hi]

theorem toNat_readLE_lt (m : Memory) (addr n : Nat) : (readLE m addr n).toNat < 2 ^ (8 * n) := by
  refine Nat.lt_pow_two_of_testBit _ fun i hi => ?_
  rw [BitVec.testBit_toNat]
  by_cases h32 : i < 32
  · rw [getLsbD_readLE m n addr h32, decide_eq_false (by omega), Bool.false_and]
  · exact BitVec.getLsbD_of_ge _ _ (by omega)

/-- A read of n bytes that are those of a value from its byte `o` up is that slice of the value, zero-extended. -/
theorem readLE_eq_slice {m : Memory} {addr n o : Nat} {v : Word}
    (h : ∀ k, k < n → readByte m (addr + k) = v.extractLsb' (8 * (o + k)) 8) :
    readLE m addr n = (v.extractLsb' (8 * o) (8 * n)).setWidth 32 := by
  ext i hi
  rw [← BitVec.getLsbD_eq_getElem hi, ← BitVec.getLsbD_eq_getElem hi, getLsbD_readLE m n addr hi]
  by_cases hn : i < 8 * n
  · have hbit : 8 * (o + i / 8) + i % 8 = 8 * o + i := by omega
    simp [h (i / 8) (by omega), hbit, hi, hn, Nat.mod_lt]
  · simp [hn]

/-- A value that fits in n bytes is its own low n bytes. -/
theorem setWidth_extractLsb'_of_lt {v : Word} {n : Nat} (h : v.toNat < 2 ^ n) :
    (v.extractLsb' 0 n).setWidth 32 = v := by
  apply BitVec.eq_of_toNat_eq
  simpa [Nat.mod_eq_of_lt h] using v.isLt

/-! ## The checked bus -/

section Checks

variable {s : State} {addr : Nat} {w : AccessWidth}

theorem busCheck_outOfBounds {c : Config} (hb : c.memCap < addr + w.bytes) :
    busCheck c addr w = .error (.memoryOutOfBounds addr w.bytes) := if_pos hb

theorem busCheck_notAligned {c : Config} (hb : addr + w.bytes ≤ c.memCap) (ha : addr % w.bytes ≠ 0) :
    busCheck c addr w = .error (.memoryNotAligned addr w.bytes) := by
  rw [busCheck, if_neg (Nat.not_lt.2 hb), if_pos ha]

theorem busCheck_ok {c : Config} (hb : addr + w.bytes ≤ c.memCap) (ha : addr % w.bytes = 0) :
    busCheck c addr w = .ok () := by
  rw [busCheck, if_neg (Nat.not_lt.2 hb), if_neg (not_not.2 ha)]

theorem memRead_of_busCheck_error {e : VmError} (h : busCheck s.config addr w = .error e) :
    memRead s addr w = .error e := by
  rw [memRead, h]

theorem memRead_of_busCheck_ok (h : busCheck s.config addr w = .ok ()) :
    memRead s addr w = .ok (readLE s.mem addr w.bytes) := by
  rw [memRead, h]

theorem memWrite_of_busCheck_error {e : VmError} (v : Word) (h : busCheck s.config addr w = .error e) :
    memWrite s addr w v = .error e := by
  rw [memWrite, h]

theorem memWrite_of_busCheck_ok (v : Word) (h : busCheck s.config addr w = .ok ()) :
    memWrite s addr w v = .ok { s with mem := writeLE s.mem addr v w.bytes } := by
  rw [memWrite, h]

end Checks

theorem AccessWidth.bytes_le_four (w : AccessWidth) : w.bytes ≤ 4 := by
  cases w <;> decide

/-- R68, R70: after a write, an aligned read that starts `o` bytes into it and ends within it returns that slice of the
value written. -/
theorem memRead_within_write {s t : State} {addr o : Nat} {w w' : AccessWidth} {v : Word} (hm : s.mem.wf)
    (h : memWrite s addr w v = .ok t) (ho : o + w'.bytes ≤ w.bytes) (ha : (addr + o) % w'.bytes = 0) :
    memRead t (addr + o) w' = .ok ((v.extractLsb' (8 * o) (8 * w'.bytes)).setWidth 32) := by
  rcases memWrite_cases h with ⟨-, e⟩ | ⟨-, -, e⟩ | ⟨hb, -, e⟩ <;> cases e
  have hcheck : busCheck s.config (addr + o) w' = .ok () := busCheck_ok (by omega) ha
  rw [memRead_of_busCheck_ok (s := { s with mem := writeLE s.mem addr v w.bytes }) hcheck]
  refine congrArg Except.ok (readLE_eq_slice fun k hk => ?_)
  rw [Nat.add_assoc]
  exact readByte_writeLE_inside _ hm _ _ (by omega)

/-- Settles O43: each outcome of the bus check in turn; the value is settled by the bits of the read. -/
theorem busRead : Obligations.BusRead := by
  intro s addr w
  split_ifs with hb ha
  · exact memRead_of_busCheck_error (busCheck_outOfBounds hb)
  · exact memRead_of_busCheck_error (busCheck_notAligned (Nat.le_of_not_lt hb) ha)
  · have hcheck : busCheck s.config addr w = .ok () := busCheck_ok (Nat.le_of_not_lt hb) (not_not.1 ha)
    exact ⟨_, memRead_of_busCheck_ok hcheck, fun k hk => extractLsb'_readLE _ _ hk w.bytes_le_four,
      toNat_readLE_lt _ _ _⟩

/-- Settles O44: each outcome of the bus check in turn; the bytes inside and outside the write are the memory laws. -/
theorem busWrite : Obligations.BusWrite := by
  intro s addr w v hs
  split_ifs with hb ha
  · exact memWrite_of_busCheck_error v (busCheck_outOfBounds hb)
  · exact memWrite_of_busCheck_error v (busCheck_notAligned (Nat.le_of_not_lt hb) ha)
  · have hcheck : busCheck s.config addr w = .ok () := busCheck_ok (Nat.le_of_not_lt hb) (not_not.1 ha)
    have hm : s.mem.wf := (State.wf_iff.1 hs).1.mem_wf
    exact ⟨_, memWrite_of_busCheck_ok v hcheck, fun k hk => readByte_writeLE_inside _ hm _ _ hk,
      fun b hb => readByte_writeLE_outside _ _ _ _ hb, rfl⟩

/-- Settles O45: reading back the whole write, of a value that fits its width; the errors are the bus check's, which
read and write share. -/
theorem writeThenReadReturnsTheValue : Obligations.WriteThenReadReturnsTheValue := by
  intro s addr w v hs
  refine ⟨fun hb ha hv => ?_, fun hb _ => ?_, fun hb ha => ?_⟩
  · have hm : s.mem.wf := (State.wf_iff.1 hs).1.mem_wf
    have hwrite := memWrite_of_busCheck_ok v (busCheck_ok hb ha)
    have hread := memRead_within_write (o := 0) (w' := w) hm hwrite (by omega) ha
    rw [Nat.mul_zero, setWidth_extractLsb'_of_lt hv] at hread
    exact ⟨_, hwrite, hread⟩
  · have hcheck := busCheck_outOfBounds hb
    exact ⟨memRead_of_busCheck_error hcheck, memWrite_of_busCheck_error v hcheck⟩
  · have hcheck := busCheck_notAligned hb ha
    exact ⟨memRead_of_busCheck_error hcheck, memWrite_of_busCheck_error v hcheck⟩

/-- Settles O46: each narrower read lies within the 4-byte write, and the halves are aligned because the word is. -/
theorem mixedWidthsSeeTheSameBytes : Obligations.MixedWidthsSeeTheSameBytes := by
  intro s t addr v hs h
  have hm : s.mem.wf := (State.wf_iff.1 hs).1.mem_wf
  have haligned : addr % 4 = 0 := by
    rcases memWrite_cases h with ⟨-, e⟩ | ⟨-, -, e⟩ | ⟨-, ha, -⟩
    · cases e
    · cases e
    · exact ha
  refine ⟨fun i hi => ?_, ?_, ?_⟩
  · exact memRead_within_write (w' := .byte) hm h hi (Nat.mod_one _)
  · exact memRead_within_write (o := 0) (w' := .half) hm h (by decide) (show addr % 2 = 0 by omega)
  · exact memRead_within_write (o := 2) (w' := .half) hm h (by decide) (show (addr + 2) % 2 = 0 by omega)

/-! ## The stack manager -/

section Stack

variable {s : State}

theorem stackPush_of_full (h : s.stk.length = s.config.stackCap) (v : Word) :
    stackPush s v = .error .stackOverflow := if_pos h

theorem stackPush_of_room (h : s.stk.length < s.config.stackCap) (v : Word) :
    stackPush s v = .ok { s with stk := s.stk ++ [v] } := if_neg h.ne

theorem stackPop_of_nil (h : s.stk = []) : stackPop s = .error .stackUnderflow := by
  simp [stackPop, h]

theorem stackPop_of_top {below : List Word} {v : Word} (h : s.stk = below ++ [v]) :
    stackPop s = .ok (v, { s with stk := below }) := by
  simp [stackPop, h]

theorem stackPeek_of_nil (h : s.stk = []) : stackPeek s = .error .stackUnderflow := by
  simp [stackPeek, h]

theorem stackPeek_of_top {below : List Word} {v : Word} (h : s.stk = below ++ [v]) : stackPeek s = .ok v := by
  simp [stackPeek, h]

end Stack

/-- Values for which there is room are all pushed, the last one on top. -/
theorem pushAll_of_room {s : State} {vs : List Word} (h : s.stk.length + vs.length ≤ s.config.stackCap) :
    pushAll s vs = .ok { s with stk := s.stk ++ vs } := by
  induction vs generalizing s with
  | nil => simp [pushAll]
  | cons v vs ih =>
    rw [List.length_cons] at h
    have hpush := stackPush_of_room (s := s) (by omega) v
    have hrest : ({ s with stk := s.stk ++ [v] } : State).stk.length + vs.length ≤ s.config.stackCap := by
      rw [List.length_append, List.length_singleton]
      omega
    simp [pushAll, hpush, ih hrest]

/-- Popping as many values as lie on top of `below` yields them from the top down and leaves `below`. -/
theorem popMany_of_top {s : State} {below vs : List Word} (h : s.stk = below ++ vs) :
    popMany s vs.length = .ok (vs.reverse, { s with stk := below }) := by
  induction vs using List.reverseRecOn generalizing s with
  | nil =>
    obtain rfl : s.stk = below := by simpa using h
    rfl
  | append_singleton vs v ih =>
    have hpop : stackPop s = .ok (v, { s with stk := below ++ vs }) := stackPop_of_top (by simpa using h)
    rw [List.length_append, List.length_singleton, popMany, hpop]
    simp [ih (s := { s with stk := below ++ vs }) rfl]

/-- Settles O40: pushing STACK_CAP values fills the empty stack, and popping them restores the state. -/
theorem stackLaws : Obligations.StackLaws := by
  intro s vs hempty hlen
  have hpush : pushAll s vs = .ok { s with stk := vs } := by
    simpa [hempty] using pushAll_of_room (s := s) (vs := vs) (by simp [hempty, hlen])
  have hpop : popMany { s with stk := vs } vs.length = .ok (vs.reverse, { s with stk := [] }) := popMany_of_top rfl
  have hback : ({ s with stk := [] } : State) = s := by rw [← hempty]
  exact ⟨_, _, hpush, stackPush_of_full hlen, hpop, hback, stackPop_of_nil rfl⟩

/-! ## The instructions of the stack, where they complete -/

theorem exec_pushreg_of_room {s : State} {r : RegIndex} (hr : r.val < s.config.regCount)
    (hroom : s.stk.length < s.config.stackCap) :
    exec (.pushreg r) s = .next (applyTransition 2 { s with stk := s.stk ++ [readReg s r] } .advance) := by
  rw [exec_pushreg r (List.forall_mem_singleton.2 hr), stackPush_of_room hroom, sequence_ok]

theorem exec_popreg_of_top {s : State} {r : RegIndex} {below : List Word} {v : Word}
    (hr : r.val < s.config.regCount) (htop : s.stk = below ++ [v]) :
    exec (.popreg r) s = .next (applyTransition 2 (writeReg { s with stk := below } r v) .advance) := by
  rw [exec_popreg r (List.forall_mem_singleton.2 hr), stackPop_of_top htop, sequence_ok]

theorem exec_call_of_room {s : State} (addr : Word) (hroom : s.stk.length < s.config.stackCap) :
    exec (.call addr) s = .next (applyTransition 5 { s with stk := s.stk ++ [linkValue s] } (.jumpTo addr)) := by
  rw [exec_call, stackPush_of_room hroom, sequence_ok]

theorem exec_ret_of_top {s : State} {below : List Word} {v : Word} (htop : s.stk = below ++ [v]) :
    exec .ret s = .next (applyTransition 1 { s with stk := below } (.jumpTo v)) := by
  rw [exec_ret, stackPop_of_top htop, sequence_ok]

/-- Settles O39: RET and POPREG pop whatever is on top, which is what PUSHREG or CALL has just pushed. -/
theorem dataAndReturnAddressesShareTheStack : Obligations.DataAndReturnAddressesShareTheStack := by
  intro s r hs hr hroom
  refine ⟨?_, fun addr => ?_⟩
  · exact ⟨_, _, exec_pushreg_of_room hr hroom, exec_ret_of_top rfl, rfl, rfl⟩
  · have hlen : r.val < s.regs.length := (State.wf_iff.1 hs).1.regs_length ▸ hr
    exact ⟨_, _, exec_call_of_room addr hroom, exec_popreg_of_top hr rfl, readReg_writeReg_self hlen _, rfl⟩

/-! ## The host's ports of memory and stack -/

section Ports

variable {s : State} (hr : s.run ≠ .running)
include hr

theorem hostStep_readMemory (addr : Nat) (w : AccessWidth) :
    hostStep s (.readMemory addr w) = some (hostRead s (memRead s addr w)) := if_neg hr

theorem hostStep_writeMemory (addr : Nat) (w : AccessWidth) (v : Word) :
    hostStep s (.writeMemory addr w v) = some (hostWrite s (memWrite s addr w v)) := if_neg hr

theorem hostStep_clearMemory : hostStep s .clearMemory = some (memClear s, .done) := if_neg hr

theorem hostStep_memoryCapacity : hostStep s .memoryCapacity = some (s, .count s.config.memCap) := if_neg hr

theorem hostStep_peek : hostStep s .peek = some (hostRead s (stackPeek s)) := if_neg hr

theorem hostStep_clearStack : hostStep s .clearStack = some (stackClear s, .done) := if_neg hr

theorem hostStep_stackLength : hostStep s .stackLength = some (s, .count s.stk.length) := if_neg hr

theorem hostStep_stackCapacity : hostStep s .stackCapacity = some (s, .count s.config.stackCap) := if_neg hr

end Ports

theorem hostStep_of_running {s : State} (hr : s.run = .running) (cmd : HostCommand) : hostStep s cmd = none :=
  if_pos hr

@[simp] theorem hostRead_ok (s : State) (v : Word) : hostRead s (.ok v) = (s, .value v) := rfl

@[simp] theorem hostRead_error (s : State) (e : VmError) : hostRead s (.error e) = (s, .error e) := rfl

@[simp] theorem hostWrite_ok (s t : State) : hostWrite s (.ok t) = (t, .done) := rfl

@[simp] theorem hostWrite_error (s : State) (e : VmError) : hostWrite s (.error e) = (s, .error e) := rfl

/-- Settles O49: no port answers during a run; outside one, read and write answer what the bus does. -/
theorem hostMemoryPorts : Obligations.HostMemoryPorts := by
  refine ⟨fun s cmd hr => hostStep_of_running hr cmd, fun s hr => ?_⟩
  refine ⟨?_, hostStep_memoryCapacity hr, ?_, ?_, ?_, ?_⟩
  · exact ⟨_, hostStep_clearMemory hr, readByte_nil, rfl⟩
  · intro addr w v h
    rw [hostStep_readMemory hr, h, hostRead_ok]
  · intro addr w v t h
    rw [hostStep_writeMemory hr, h, hostWrite_ok]
  · intro addr w e h
    rw [hostStep_readMemory hr, h, hostRead_error]
  · intro addr w v e h
    rw [hostStep_writeMemory hr, h, hostWrite_error]

/-- Settles O50: peek answers the two cases of the stack; the other ports have one reply. -/
theorem hostStackPorts : Obligations.HostStackPorts := by
  intro s hr
  refine ⟨fun h => ?_, fun below v h => ?_, hostStep_clearStack hr, hostStep_stackLength hr,
    hostStep_stackCapacity hr⟩
  · rw [hostStep_peek hr, stackPeek_of_nil h, hostRead_error]
  · rw [hostStep_peek hr, stackPeek_of_top h, hostRead_ok]

end Sys2Proof.Machine

/-! # The encoding section's statements: the opcode map, the encoder and the decoder's checks

The opcode map: under a legal configuration `opcodeByte` is injective and onto 0x00..0x18, so dispatch inverts it
(`opcodeOfByte_opcodeByte`). The decoder: one equation per check of 30_encoding.md R109. The round trip in both
directions is then what operand extraction and `operandBytes` do to each other (`assemble_encode_append`,
`operandBytes_assemble`). -/

namespace Sys2Proof

open Sys2Proof.Machine (defaultConfig defaultOpcodeMap)

/-! ## The opcode map (30_encoding.md R103) -/

theorem mem_nonHaltOpcodes {op : Opcode} (h : op ≠ .hlt) : op ∈ nonHaltOpcodes :=
  List.idxOf_lt_length_iff.1 (idxOf_nonHaltOpcodes_lt h)

theorem ne_hlt_of_mem_nonHaltOpcodes {op : Opcode} (h : op ∈ nonHaltOpcodes) : op ≠ .hlt := by
  rintro rfl
  exact absurd h (by decide)

theorem opcodeByte_mem_opcodeMap {c : Config} {op : Opcode} (hc : c.legal) (h : op ≠ .hlt) :
    opcodeByte c op ∈ c.opcodeMap := by
  rw [opcodeByte_of_ne_hlt hc h]
  exact List.getElem_mem _

theorem opcodeByte_toNat_le {c : Config} {op : Opcode} (hc : c.legal) (h : op ≠ .hlt) :
    (opcodeByte c op).toNat ≤ 0x18 := by
  have hmem : opcodeByte c op ∈ c.opcodeMap := opcodeByte_mem_opcodeMap hc h
  obtain ⟨-, -, -, -, -, hle⟩ := hc
  exact hle _ hmem

theorem opcodeByte_eq_halt_iff {c : Config} {op : Opcode} (hc : c.legal) :
    opcodeByte c op = 0xFF ↔ op = .hlt := by
  refine ⟨fun h => ?_, fun h => h ▸ opcodeByte_hlt c⟩
  by_contra hop
  have hle := opcodeByte_toNat_le hc hop
  rw [h] at hle
  exact absurd hle (by decide)

/-- No two opcodes share a byte: the map has no repetition, and 0xFF is outside it. -/
theorem opcodeByte_injective {c : Config} (hc : c.legal) : Function.Injective (opcodeByte c) := by
  intro op op' h
  by_cases hop : op = .hlt
  · rw [hop, opcodeByte_hlt] at h
    rw [hop, (opcodeByte_eq_halt_iff hc).1 h.symm]
  · have hop' : op' ≠ .hlt := fun e => hop ((opcodeByte_eq_halt_iff hc).1 (by rw [h, e, opcodeByte_hlt]))
    obtain ⟨-, -, -, -, hnodup, -⟩ := id hc
    rw [opcodeByte_of_ne_hlt hc hop, opcodeByte_of_ne_hlt hc hop', hnodup.getElem_inj_iff] at h
    exact (List.idxOf_inj (mem_nonHaltOpcodes hop)).1 h

/-- Dispatch answers only an opcode with that byte, whatever the map. -/
theorem opcodeByte_of_opcodeOfByte {c : Config} {b : Byte} {op : Opcode} (h : opcodeOfByte c b = some op) :
    opcodeByte c op = b := by
  unfold opcodeOfByte at h
  split at h
  · next hb =>
    cases h
    exact hb.symm
  · simpa using List.find?_some h

/-- Dispatch of an opcode's byte gives the opcode (30_encoding.md R103, R107). -/
theorem opcodeOfByte_opcodeByte {c : Config} (hc : c.legal) (op : Opcode) :
    opcodeOfByte c (opcodeByte c op) = some op := by
  have hsome : ∃ op', opcodeOfByte c (opcodeByte c op) = some op' := by
    by_cases hop : op = .hlt
    · exact ⟨.hlt, by rw [hop, opcodeByte_hlt, opcodeOfByte_halt]⟩
    · rw [opcodeOfByte, if_neg (mt (opcodeByte_eq_halt_iff hc).1 hop)]
      exact Option.isSome_iff_exists.1 (List.find?_isSome.2 ⟨op, mem_nonHaltOpcodes hop, by simp⟩)
  obtain ⟨op', h⟩ := hsome
  rw [h, opcodeByte_injective hc (opcodeByte_of_opcodeOfByte h)]

/-- The map holds every byte up to 0x18: 25 different bytes, none above 0x18, leave none out. -/
theorem mem_opcodeMap_of_toNat_le {c : Config} {b : Byte} (hc : c.legal) (hb : b.toNat ≤ 0x18) :
    b ∈ c.opcodeMap := by
  obtain ⟨-, -, -, hlen, hnodup, hle⟩ := hc
  have hsub : c.opcodeMap.map BitVec.toNat ⊆ List.range 25 := by
    intro n hn
    obtain ⟨a, ha, rfl⟩ := List.mem_map.1 hn
    exact List.mem_range.2 (Nat.lt_succ_of_le (hle a ha))
  have hperm : (c.opcodeMap.map BitVec.toNat).Perm (List.range 25) :=
    (List.subperm_of_subset (hnodup.map BitVec.toNat_injective) hsub).perm_of_length_le (by simp [hlen])
  rw [← List.mem_map_of_injective BitVec.toNat_injective, hperm.mem_iff]
  exact List.mem_range.2 (Nat.lt_succ_of_le hb)

/-- Every entry of the map is the byte of the opcode at its place. -/
theorem exists_opcodeByte_eq {c : Config} {b : Byte} (hc : c.legal) (hb : b ∈ c.opcodeMap) :
    ∃ op, op ≠ .hlt ∧ opcodeByte c op = b := by
  obtain ⟨k, hk, rfl⟩ := List.getElem_of_mem hb
  obtain ⟨-, -, -, hlen, -, -⟩ := id hc
  have hk' : k < nonHaltOpcodes.length := Nat.lt_of_lt_of_eq hk hlen
  have hop : nonHaltOpcodes[k] ≠ .hlt := ne_hlt_of_mem_nonHaltOpcodes (List.getElem_mem hk')
  have hidx : nonHaltOpcodes.idxOf nonHaltOpcodes[k] = k := List.Nodup.idxOf_getElem (by decide) k hk'
  exact ⟨nonHaltOpcodes[k], hop, by simp only [opcodeByte_of_ne_hlt hc hop, hidx]⟩

/-- A byte that is neither 0xFF nor in the map is no opcode (30_encoding.md R107). -/
theorem opcodeOfByte_eq_none {c : Config} {b : Byte} (hhalt : b ≠ 0xFF) (hb : b ∉ c.opcodeMap) :
    opcodeOfByte c b = none := by
  rw [opcodeOfByte, if_neg hhalt, List.find?_eq_none]
  intro op hop h
  rw [beq_iff_eq, opcodeByte, if_neg (ne_hlt_of_mem_nonHaltOpcodes hop)] at h
  by_cases hk : nonHaltOpcodes.idxOf op < c.opcodeMap.length
  · rw [List.getD_eq_getElem _ _ hk] at h
    exact hb (h ▸ List.getElem_mem hk)
  · rw [List.getD_eq_default _ _ (Nat.le_of_not_lt hk)] at h
    exact hhalt h.symm

/-- An opcode's byte depends on the map alone. -/
theorem opcodeByte_congr {c d : Config} (h : c.opcodeMap = d.opcodeMap) : opcodeByte c = opcodeByte d := by
  funext op
  rw [opcodeByte, opcodeByte, h]

/-! ## The decoder's checks, in the order of 30_encoding.md R109 -/

section Checks

variable {c : Config} {b0 : Byte} {rest : List Byte} {op : Opcode}

/-- The length check fails. -/
theorem decodeSlice_of_short (hop : opcodeOfByte c b0 = some op) (hlen : (b0 :: rest).length < op.length) :
    decodeSlice c (b0 :: rest) = .error .invalidInstruction := by
  rw [decodeSlice_cons hop, if_pos hlen]

/-- The length check passes and the register check fails. -/
theorem decodeSlice_of_badRegister {v : Byte} (hop : opcodeOfByte c b0 = some op)
    (hlen : op.length ≤ (b0 :: rest).length) (hbad : badRegister c op ((b0 :: rest).getD · 0) = some v) :
    decodeSlice c (b0 :: rest) = .error (.invalidRegister v.toNat) := by
  rw [decodeSlice_cons hop, if_neg (Nat.not_lt.2 hlen), hbad]

/-- Every check passes. -/
theorem decodeSlice_of_checked (hop : opcodeOfByte c b0 = some op) (hlen : op.length ≤ (b0 :: rest).length)
    (hbad : badRegister c op ((b0 :: rest).getD · 0) = none) :
    decodeSlice c (b0 :: rest) = .ok (assemble op ((b0 :: rest).getD · 0)) := by
  rw [decodeSlice_cons hop, if_neg (Nat.not_lt.2 hlen), hbad]

/-- A decoded instruction has the opcode of the first byte. -/
theorem opcodeOfByte_of_decodeSlice {i : Instr} (h : decodeSlice c (b0 :: rest) = .ok i) :
    opcodeOfByte c b0 = some i.opcode := by
  cases hop : opcodeOfByte c b0 with
  | none =>
    rw [decodeSlice_of_none hop] at h
    cases h
  | some op =>
    rw [decodeSlice_cons hop] at h
    split at h
    · cases h
    · split at h <;> cases h
      rw [assemble_opcode]

end Checks

/-! ## Decoding what was encoded -/

/-- The operand laws of every instruction. -/
theorem operands_statement (i : Instr) : Laws.Operands.Statement i := by
  cases i with
  | nop => exact Laws.Operands.nop
  | ld rd imm => exact Laws.Operands.ld rd imm
  | load rd addr => exact Laws.Operands.load rd addr
  | store rs addr => exact Laws.Operands.store rs addr
  | add rd rs1 rs2 => exact Laws.Operands.add rd rs1 rs2
  | sub rd rs1 rs2 => exact Laws.Operands.sub rd rs1 rs2
  | mul rd rs1 rs2 => exact Laws.Operands.mul rd rs1 rs2
  | div rd rs1 rs2 => exact Laws.Operands.div rd rs1 rs2
  | mod rd rs1 rs2 => exact Laws.Operands.mod rd rs1 rs2
  | inc rd => exact Laws.Operands.inc rd
  | dec rd => exact Laws.Operands.dec rd
  | and rd rs1 rs2 => exact Laws.Operands.and rd rs1 rs2
  | or rd rs1 rs2 => exact Laws.Operands.or rd rs1 rs2
  | xor rd rs1 rs2 => exact Laws.Operands.xor rd rs1 rs2
  | not rd rs => exact Laws.Operands.not rd rs
  | cmp ra rb => exact Laws.Operands.cmp ra rb
  | jmp addr => exact Laws.Operands.jmp addr
  | jn addr => exact Laws.Operands.jn addr
  | jnn addr => exact Laws.Operands.jnn addr
  | jz addr => exact Laws.Operands.jz addr
  | call addr => exact Laws.Operands.call addr
  | ret => exact Laws.Operands.ret
  | pushreg r => exact Laws.Operands.pushreg r
  | popreg r => exact Laws.Operands.popreg r
  | clf => exact Laws.Operands.clf
  | hlt => exact Laws.Operands.hlt

/-- An encoded instruction has LEN bytes (30_encoding.md R104). -/
theorem encode_length (c : Config) (i : Instr) : (encode c i).length = i.opcode.length := by
  obtain ⟨hlen, -, -⟩ := operands_statement i c []
  exact hlen

/-- Operand extraction undoes the encoder, whatever follows the bytes (30_encoding.md R118). -/
theorem assemble_encode_append (c : Config) (i : Instr) (more : List Byte) :
    assemble i.opcode ((encode c i ++ more).getD · 0) = i := by
  obtain ⟨-, hback, -⟩ := operands_statement i c more
  exact hback

/-- A slice that begins with the bytes of a well-formed instruction decodes to it. -/
theorem decodeSlice_encode_append {c : Config} {i : Instr} (hc : c.legal) (hi : i.wellFormed c)
    (more : List Byte) : decodeSlice c (encode c i ++ more) = .ok i := by
  have hlen : i.opcode.length ≤ (encode c i ++ more).length := by
    rw [List.length_append, encode_length]
    exact Nat.le_add_right _ _
  obtain ⟨-, -, hregs⟩ := operands_statement i c more
  calc decodeSlice c (encode c i ++ more)
      = .ok (assemble i.opcode ((encode c i ++ more).getD · 0)) :=
        decodeSlice_of_checked (opcodeOfByte_opcodeByte hc i.opcode) hlen (hregs hi)
    _ = .ok i := by rw [assemble_encode_append]

/-- Settles O51: decoding looks at the slice from pc alone, which begins with the encoded bytes. -/
theorem decodeOfEncode : Obligations.DecodeOfEncode := by
  intro c i before after hc hi
  rw [List.append_assoc, decode_append, decodeSlice_encode_append hc hi]

/-! ## Encoding what was decoded -/

/-- The encoder's operand bytes of an assembled instruction are the bytes it was assembled from, in stream order
(30_encoding.md R101). -/
theorem operandBytes_assemble (op : Opcode) (b : Nat → Byte) :
    operandBytes (assemble op b) = (List.range (op.length - 1)).map fun k => b (k + 1) := by
  cases op with
  | ld | load | store => exact congrArg (b 1 :: ·) (wordBytes_le32 (b 2) (b 3) (b 4) (b 5))
  | jmp | jn | jnn | jz | call => exact wordBytes_le32 (b 1) (b 2) (b 3) (b 4)
  | _ => rfl

/-- Reading the first n positions of a list that has them is taking its first n elements. -/
theorem map_getD_range_eq_take {l : List Byte} {n : Nat} (h : n ≤ l.length) :
    (List.range n).map (l.getD · 0) = l.take n := by
  refine List.ext_getElem (by simpa using h) fun k hk _ => ?_
  have hkl : k < l.length := Nat.lt_of_lt_of_le (by simpa using hk) h
  simp [hkl]

/-- The bytes an instruction was decoded from are its encoding. -/
theorem take_eq_encode_of_decodeSlice {c : Config} {slice : List Byte} {i : Instr}
    (h : decodeSlice c slice = .ok i) : slice.take i.opcode.length = encode c i := by
  cases slice with
  | nil => cases h
  | cons b0 rest =>
    have hop := opcodeOfByte_of_decodeSlice h
    obtain ⟨op, hlen, -, rfl⟩ := decodeSlice_eq_ok h
    rw [assemble_opcode] at hop ⊢
    obtain ⟨n, hn⟩ := Nat.exists_eq_add_of_le' op.length_pos
    have hrest : n ≤ rest.length := by
      rw [hn] at hlen
      exact Nat.le_of_succ_le_succ hlen
    have hoperands : operandBytes (assemble op ((b0 :: rest).getD · 0)) = rest.take n := by
      rw [operandBytes_assemble, hn]
      exact map_getD_range_eq_take hrest
    rw [encode, assemble_opcode, opcodeByte_of_opcodeOfByte hop, hoperands, hn, List.take_succ_cons]

/-- Settles O52: the decoder has checked registers and length, and the slice begins with the encoding. -/
theorem decodedBytesAreTheEncoding : Obligations.DecodedBytesAreTheEncoding := fun _ _ _ _ _ h =>
  ⟨wellFormed_of_decode h, length_le_of_decode h, take_eq_encode_of_decodeSlice h⟩

/-! ## The statements about the encoder -/

/-- Settles O53: the first byte gives the opcode, and operand extraction of that opcode gives both instructions from
the same bytes. -/
theorem encodingIsInjective : Obligations.EncodingIsInjective := by
  intro c i j more hc h
  have hop : i.opcode = j.opcode := opcodeByte_injective hc (List.head_eq_of_cons_eq h)
  calc i = assemble i.opcode ((encode c i ++ more).getD · 0) := (assemble_encode_append c i more).symm
    _ = assemble j.opcode ((encode c j ++ []).getD · 0) := by rw [hop, h, List.append_nil]
    _ = j := assemble_encode_append c j []

/-- Settles O54: a legal map has no repetition and leaves no byte up to 0x18 out, so dispatch inverts it. -/
theorem opcodeMapIsABijection : Obligations.OpcodeMapIsABijection := by
  refine ⟨fun c hmap => ?_, fun c hc => ⟨opcodeByte_hlt c, fun op => opcodeByte_toNat_le hc,
    opcodeOfByte_opcodeByte hc, fun b op => opcodeByte_of_opcodeOfByte, fun b hb => ?_⟩⟩
  · rw [opcodeByte_congr (d := defaultConfig) hmap]
    decide
  · obtain ⟨op, hop, rfl⟩ := exists_opcodeByte_eq hc (mem_opcodeMap_of_toNat_le hc hb)
    exact ⟨op, hop, opcodeOfByte_opcodeByte hc op⟩

/-- Settles O55: the table of R104 by evaluation; the proper beginnings fail the first check or the length check. -/
theorem encodedLengths : Obligations.EncodedLengths := by
  refine ⟨by decide, by decide, by decide, by decide, by decide, by decide, encode_length, fun c i n hc hn => ?_⟩
  cases n with
  | zero => rfl
  | succ n =>
    have hshort : ((encode c i).take (n + 1)).length < i.opcode.length :=
      Nat.lt_of_le_of_lt (List.length_take_le _ _) hn
    exact decodeSlice_of_short (opcodeOfByte_opcodeByte hc i.opcode) hshort

/-! ## The statements about the decoder's errors -/

/-- Settles O56: a byte that the map does not hold is no opcode, and no entry of the default map is above 0x18. -/
theorem unassignedBytesAreInvalidOpcodes : Obligations.UnassignedBytesAreInvalidOpcodes := by
  refine ⟨fun c b rest hmap hlow hhigh => ?_, fun c b before rest _ hhalt hb => ?_⟩
  · have hhalt : b ≠ 0xFF := by
      rintro rfl
      exact absurd hhigh (by decide)
    have hb : b ∉ c.opcodeMap := by
      have hdefault : ∀ a ∈ defaultOpcodeMap, a.toNat ≤ 0x18 := by decide
      intro hb
      exact absurd (hdefault b (hmap ▸ hb)) (Nat.not_le.2 hlow)
    exact decodeSlice_of_none (opcodeOfByte_eq_none hhalt hb)
  · rw [decode_append, decodeSlice_of_none (opcodeOfByte_eq_none hhalt hb)]

/-- The register fields of a format are in ascending order (30_encoding.md R110). -/
theorem regFields_pairwise_lt (f : Format) : f.regFields.Pairwise (· < ·) := by
  cases f <;> decide

/-- In an ascending list, the first element that satisfies p is the one below which none does. -/
theorem find?_eq_some_of_pairwise_lt {p : Nat → Bool} {l : List Nat} {n : Nat} (hl : l.Pairwise (· < ·))
    (hn : n ∈ l) (hp : p n = true) (hbelow : ∀ m ∈ l, m < n → p m = false) : l.find? p = some n := by
  obtain ⟨as, bs, rfl⟩ := List.append_of_mem hn
  rw [List.find?_eq_some_iff_append]
  refine ⟨hp, as, bs, rfl, fun m hm => ?_⟩
  have hlt : m < n := (List.pairwise_append.1 hl).2.2 m hm n List.mem_cons_self
  rw [hbelow m (List.mem_append_left _ hm) hlt, Bool.not_false]

/-- The register check reports the field at the lowest byte offset (30_encoding.md R110). -/
theorem badRegister_eq_some {c : Config} {op : Opcode} {b : Nat → Byte} {p : Nat} (hp : p ∈ op.format.regFields)
    (hbelow : ∀ q ∈ op.format.regFields, q < p → (b q).toNat < c.regCount) (hbad : c.regCount ≤ (b p).toNat) :
    badRegister c op b = some (b p) := by
  have hfind : op.format.regFields.find? (fun q => decide (c.regCount ≤ (b q).toNat)) = some p :=
    find?_eq_some_of_pairwise_lt (regFields_pairwise_lt _) hp (decide_eq_true hbad)
      fun q hq hlt => decide_eq_false (Nat.not_le.2 (hbelow q hq hlt))
  rw [badRegister, List.find?_map]
  exact congrArg (Option.map b) hfind

/-- The slice from a pc within the program begins with the byte there. -/
theorem drop_eq_cons_of_getElem? {prog : List Byte} {pc : Nat} {b0 : Byte} (h : prog[pc]? = some b0) :
    prog.drop pc = b0 :: prog.drop (pc + 1) := by
  obtain ⟨hpc, rfl⟩ := List.getElem?_eq_some_iff.1 h
  exact List.drop_eq_getElem_cons hpc

theorem getD_drop (prog : List Byte) (pc k : Nat) : (prog.drop pc).getD k 0 = prog.getD (pc + k) 0 := by
  simp [List.getD_eq_getElem?_getD]

/-- Settles O57: one equation of `decodeSlice` per check, on the slice from pc. -/
theorem decoderChecksInOrder : Obligations.DecoderChecksInOrder := by
  refine ⟨⟨rfl, rfl, rfl, rfl, rfl, rfl, rfl⟩, fun c prog pc => ⟨decode_of_length_le c, ?_, ?_⟩⟩
  · intro b0 hb0 hop
    rw [decode, drop_eq_cons_of_getElem? hb0, decodeSlice_of_none hop]
  · intro b0 op hb0 hop
    have hslice : prog.drop pc = b0 :: prog.drop (pc + 1) := drop_eq_cons_of_getElem? hb0
    have hsize : (b0 :: prog.drop (pc + 1)).length = prog.length - pc := by rw [← hslice, List.length_drop]
    have hbytes : ((b0 :: prog.drop (pc + 1)).getD · 0) = fun k => prog.getD (pc + k) 0 := by
      rw [← hslice]
      exact funext (getD_drop prog pc)
    have hpos := op.length_pos
    refine ⟨fun hlen => ?_, fun hlen => ⟨fun p hp hbelow hbad => ?_, fun hregs => ?_⟩⟩
    · rw [decode, hslice, decodeSlice_of_short hop (by omega)]
    · have hfound : badRegister c op ((b0 :: prog.drop (pc + 1)).getD · 0) = some (prog.getD (pc + p) 0) := by
        rw [hbytes]
        exact badRegister_eq_some hp hbelow hbad
      rw [decode, hslice, decodeSlice_of_badRegister hop (by omega) hfound]
    · have hnone : badRegister c op ((b0 :: prog.drop (pc + 1)).getD · 0) = none := by
        rw [hbytes]
        exact Laws.Operands.badRegister_eq_none hregs
      have hdecode := decodeSlice_of_checked hop (by omega) hnone
      rw [← hslice] at hdecode
      exact ⟨_, hdecode, assemble_opcode op _, wellFormed_of_decode hdecode⟩

/-! ## Words of the spec -/

/-- A word that is the encoding of an instruction decodes to it, behind any bytes. -/
theorem decode_of_encode_eq {i : Instr} {word : List Byte} (before : List Byte)
    (hword : encode defaultConfig i = word ∧ i.wellFormed defaultConfig) :
    decode defaultConfig (before ++ word) before.length = .ok i := by
  obtain ⟨rfl, hi⟩ := hword
  rw [decode_append, ← List.append_nil (encode defaultConfig i)]
  exact decodeSlice_encode_append Machine.defaultConfig_legal hi []

/-- Settles O58: the eight words are encodings of instructions whose registers are below 8. -/
theorem sampleWordsDecode : Obligations.SampleWordsDecode :=
  ⟨decode_of_encode_eq [] (by decide +kernel), decode_of_encode_eq [] (by decide +kernel),
    decode_of_encode_eq [] (by decide +kernel), decode_of_encode_eq [] (by decide +kernel),
    decode_of_encode_eq [] (by decide +kernel), decode_of_encode_eq [0x00, 0x00] (by decide +kernel),
    decode_of_encode_eq [] (by decide +kernel), decode_of_encode_eq [] (by decide +kernel)⟩

end Sys2Proof

/-! # DIV and MOD: the result mux, truncated division and the zero divisor

`writesRegister_of_finish` says once what writing a result and flags and advancing leaves; the quotient, the remainder
and the draw of a zero divisor all end in it. -/

namespace Sys2Proof.Machine

/-! ## The flag classes as the spec writes them (41_arithmetic.md R151, R152) -/

theorem isZero_eq (res : Word) : isZero res = decide (res = 0) := rfl

/-- R152: bit 31 is the sign of the signed value. -/
theorem isNegative_eq (res : Word) : isNegative res = decide (s32 res < 0) := BitVec.msb_eq_toInt

theorem flagsArith_eq (res : Word) (w : Bool) (f : Flags) :
    flagsArith res w f =
      { zero := decide (res = 0), carry := f.carry, overflow := w, negative := decide (s32 res < 0) } := by
  rw [flagsArith, isZero_eq, isNegative_eq]

/-- On the wrapped result and the wrap bit of an exact result, class ARITH is `arithFlags` of it. -/
theorem flagsArith_wrapExact (e : Int) (f : Flags) :
    flagsArith (wrapExact e).1 (wrapExact e).2 f = arithFlags f e := flagsArith_eq _ _ _

theorem flagsMod_eq_modFlags (m : ModOvf) (res : Word) (f : Flags) : flagsMod m res f = modFlags m f res := by
  cases m <;> simp [flagsMod, modFlags, isZero_eq, isNegative_eq]

/-! ## The result mux (41_arithmetic.md R150) -/

section Finish

variable {s : State} {rd : RegIndex}

/-- Writing a result and the flags, then advancing, has the frame of an instruction that writes one register. -/
theorem writesRegister_of_finish (hrd : rd.val < s.regs.length) (v : Word) (f : Flags) (n : Nat) :
    WritesRegister s (applyTransition n (setFlags (writeReg s rd v) f) .advance) n rd v f :=
  ⟨readReg_writeReg_self hrd v, fun _ hr => readReg_writeReg_of_ne v hr, rfl, fun _ => rfl, rfl⟩

/-- Class ARITH; the state the sequencer would take an error on plays no part. -/
theorem sequence_finishArith (hrd : rd.val < s.regs.length) (u : State) (r : Word × Bool) (n : Nat) :
    WritesRegister s (sequence n u (finishArith s rd r)) n rd r.1 (flagsArith r.1 r.2 s.flags) :=
  writesRegister_of_finish hrd _ _ n

/-- Class MODC; the state the sequencer would take an error on plays no part. -/
theorem sequence_finishMod (hrd : rd.val < s.regs.length) (u : State) (res : Word) (n : Nat) :
    WritesRegister s (sequence n u (finishMod s rd res)) n rd res (modFlags s.config.modOvf s.flags res) := by
  rw [← flagsMod_eq_modFlags]
  exact writesRegister_of_finish hrd _ _ n

end Finish

/-- In a good state a register the instruction names is in the register file (10_state.md R20). -/
theorem lt_regs_length_of_wellFormed {s : State} {i : Instr} {r : RegIndex} (hs : s.wf)
    (hi : i.wellFormed s.config) (hr : r ∈ i.regs) : r.val < s.regs.length :=
  Nat.lt_of_lt_of_eq (hi r hr) (State.wf_iff.1 hs).1.regs_length.symm

/-! ## The zero divisor (41_arithmetic.md R154) -/

theorem s32_eq_zero_iff {v : Word} : s32 v = 0 ↔ v = 0 := BitVec.toInt_inj (y := 0)

section ZeroDivisor

variable {s : State} (finish : State → Word × Bool → Execution)

theorem divZero_of_fault (h : s.config.div0Mode = .fault) : divZero s finish = .error .divisionByZero := by
  simp [divZero, h]

theorem divZero_of_draw (h : s.config.div0Mode ≠ .fault) :
    divZero s finish =
      finish { s with draws := s.draws + 1 } (Config.drawResult s.draws, Config.drawWrap s.draws) := by
  cases hm : s.config.div0Mode with
  | fault => exact absurd hm h
  | draw => simp [divZero, hm]

end ZeroDivisor

/-! ## DIV and MOD -/

/-- The remainder with the sign of the dividend is what is left of the truncated quotient (00_scope.md R12). -/
theorem ovfRem_eq_wrapExact_tmod (a b : Word) : ovfRem a b = wrapExact ((s32 a).tmod (s32 b)) := by
  rw [ovfRem, Int.tmod_def]

/-- The encoding of an instruction of format F3R under the default map (30_encoding.md R101, R102). -/
theorem encode_of_operandBytes {c : Config} {i : Instr} {rd rs1 rs2 : RegIndex} (hc : c.opcodeMap = defaultOpcodeMap)
    (hi : operandBytes i = [byteOfReg rd, byteOfReg rs1, byteOfReg rs2]) :
    encode c i = [opcodeByte defaultConfig i.opcode, .ofNat 8 rd, .ofNat 8 rs1, .ofNat 8 rs2] := by
  rw [encode, opcodeByte_congr (d := defaultConfig) hc, hi, byteOfReg_eq_ofNat, byteOfReg_eq_ofNat,
    byteOfReg_eq_ofNat]

/-- Settles O26: by the divisor and DIV0_MODE, the quotient through the result mux, the error, or the draw through the
result mux. -/
theorem divResult : Obligations.DivResult := by
  refine ⟨fun c rd rs1 rs2 hc => encode_of_operandBytes hc rfl, fun s rd rs1 rs2 hs hi => ?_⟩
  have hrd : rd.val < s.regs.length := lt_regs_length_of_wellFormed hs hi (by simp [Instr.regs])
  rw [exec_div rd rs1 rs2 hi]
  split
  next hdivisor =>
    rw [if_neg (mt s32_eq_zero_iff.1 hdivisor)]
    exact ⟨_, rfl, flagsArith_wrapExact _ s.flags ▸ sequence_finishArith hrd s _ 4⟩
  next hzero =>
    rw [if_pos (s32_eq_zero_iff.2 (not_not.1 hzero))]
    split
    next hfault => rw [divZero_of_fault _ hfault, sequence_error, raiseError]
    next hdraw =>
      rw [divZero_of_draw _ hdraw]
      exact ⟨_, rfl, flagsArith_eq _ _ s.flags ▸
        sequence_finishArith (s := { s with draws := s.draws + 1 }) hrd s _ 4⟩

/-- Settles O27: as DIV, with the remainder in place of the quotient and the wrap bit unused. -/
theorem modResult : Obligations.ModResult := by
  refine ⟨fun c rd rs1 rs2 hc => encode_of_operandBytes hc rfl, fun s rd rs1 rs2 hs hi => ?_⟩
  have hrd : rd.val < s.regs.length := lt_regs_length_of_wellFormed hs hi (by simp [Instr.regs])
  rw [exec_mod rd rs1 rs2 hi]
  split
  next hdivisor =>
    rw [if_neg (mt s32_eq_zero_iff.1 hdivisor), ovfRem_eq_wrapExact_tmod]
    exact ⟨_, rfl, sequence_finishMod hrd s _ 4⟩
  next hzero =>
    rw [if_pos (s32_eq_zero_iff.2 (not_not.1 hzero))]
    split
    next hfault => rw [divZero_of_fault _ hfault, sequence_error, raiseError]
    next hdraw =>
      rw [divZero_of_draw _ hdraw]
      exact ⟨_, rfl, sequence_finishMod (s := { s with draws := s.draws + 1 }) hrd s _ 4⟩

end Sys2Proof.Machine

/-! # LD, LOAD and STORE: encoding, result, frame and errors

The three share the format of a register and a 32-bit value, so one lemma encodes them. LOAD and STORE share the bus
check: each has one equation for a check that fails and one for a check that passes, and the statements follow the
check's outcomes. -/

namespace Sys2Proof

open Sys2Proof.Machine (defaultConfig defaultOpcodeMap)

/-! ## The bytes of an instruction with a register and a 32-bit value -/

/-- The encoding of an instruction of format FRI or FRA under the default map (30_encoding.md R101, R102). -/
theorem encode_of_register_word {c : Config} {i : Instr} {r : RegIndex} {v : Word}
    (hc : c.opcodeMap = defaultOpcodeMap) (hi : operandBytes i = byteOfReg r :: wordBytes v) :
    encode c i = [opcodeByte defaultConfig i.opcode, .ofNat 8 r, v.extractLsb' 0 8, v.extractLsb' 8 8,
      v.extractLsb' 16 8, v.extractLsb' 24 8] := by
  rw [encode, opcodeByte_congr (d := defaultConfig) hc, hi, byteOfReg_eq_ofNat]
  rfl

/-- Dispatch depends on the map alone. -/
theorem opcodeOfByte_congr {c d : Config} (h : c.opcodeMap = d.opcodeMap) : opcodeOfByte c = opcodeOfByte d := by
  funext b
  rw [opcodeOfByte, opcodeOfByte, opcodeByte_congr h]

/-- Under the default map, whatever the other parameters, the default byte of an opcode dispatches to it. -/
theorem opcodeOfByte_of_default {c : Config} (hc : c.opcodeMap = defaultOpcodeMap) (op : Opcode) :
    opcodeOfByte c (opcodeByte defaultConfig op) = some op := by
  rw [opcodeOfByte_congr (d := defaultConfig) hc]
  exact opcodeOfByte_opcodeByte Machine.defaultConfig_legal op

/-- Under the default map an encoded instruction whose one register operand does not exist is InvalidRegister at the
decode (30_encoding.md R110). -/
theorem decode_encode_of_missing_register {c : Config} {i : Instr} {r : RegIndex} {more : List Byte}
    (hc : c.opcodeMap = defaultOpcodeMap) (hfield : i.opcode.format.regFields = [1])
    (hi : operandBytes i = byteOfReg r :: more) (hr : c.regCount ≤ r.val) :
    decode c (encode c i) 0 = .error (.invalidRegister r.val) := by
  have hop : opcodeOfByte c (opcodeByte c i.opcode) = some i.opcode := by
    rw [opcodeByte_congr (d := defaultConfig) hc]
    exact opcodeOfByte_of_default hc i.opcode
  have hbad : badRegister c i.opcode ((encode c i).getD · 0) = some (byteOfReg r) := by
    simp [badRegister, hfield, encode, hi, hr]
  exact decodeSlice_of_badRegister hop (encode_length c i).ge hbad

end Sys2Proof

namespace Sys2Proof.Machine

/-! ## A word read -/

/-- The four bytes at an address, little-endian (00_scope.md R10). -/
theorem readLE_four (m : Memory) (a : Nat) :
    readLE m a 4 = le32 (readByte m a) (readByte m (a + 1)) (readByte m (a + 2)) (readByte m (a + 3)) := by
  have hbyte (k : Nat) (hk : k < 4) : byteAt (readLE m a 4) k = readByte m (a + k) :=
    extractLsb'_readLE m a hk (Nat.le_refl 4)
  calc readLE m a 4
      = le32 (byteAt (readLE m a 4) 0) (byteAt (readLE m a 4) 1) (byteAt (readLE m a 4) 2)
          (byteAt (readLE m a 4) 3) := (le32_byteAt _).symm
    _ = le32 (readByte m a) (readByte m (a + 1)) (readByte m (a + 2)) (readByte m (a + 3)) := by
      rw [hbyte 0 (by decide), hbyte 1 (by decide), hbyte 2 (by decide), hbyte 3 (by decide), Nat.add_zero]

/-! ## Executing LOAD and STORE by the outcome of the bus check -/

section BusCheck

variable {s : State} {r : RegIndex} {addr : Word}

theorem exec_load_of_busCheck_error {e : VmError} (hi : (Instr.load r addr).wellFormed s.config)
    (h : busCheck s.config (u32 addr) .word = .error e) :
    exec (.load r addr) s = .next (raiseError s e) := by
  rw [exec_load r addr hi, memRead_of_busCheck_error h, sequence_error]

theorem exec_load_of_busCheck_ok (hi : (Instr.load r addr).wellFormed s.config)
    (h : busCheck s.config (u32 addr) .word = .ok ()) :
    exec (.load r addr) s = .next (applyTransition 6 (writeReg s r (readLE s.mem (u32 addr) 4)) .advance) := by
  rw [exec_load r addr hi, memRead_of_busCheck_ok h, sequence_ok, AccessWidth.bytes]

theorem exec_store_of_busCheck_error {e : VmError} (hi : (Instr.store r addr).wellFormed s.config)
    (h : busCheck s.config (u32 addr) .word = .error e) :
    exec (.store r addr) s = .next (raiseError s e) := by
  rw [exec_store r addr hi, memWrite_of_busCheck_error _ h, sequence_error]

theorem exec_store_of_busCheck_ok (hi : (Instr.store r addr).wellFormed s.config)
    (h : busCheck s.config (u32 addr) .word = .ok ()) :
    exec (.store r addr) s =
      .next (applyTransition 6 { s with mem := writeLE s.mem (u32 addr) (readReg s r) 4 } .advance) := by
  rw [exec_store r addr hi, memWrite_of_busCheck_ok _ h, sequence_ok, AccessWidth.bytes]

end BusCheck

/-- Writing a register and advancing, the flags kept. -/
theorem writesRegister_of_writeReg {s : State} {rd : RegIndex} (hrd : rd.val < s.regs.length) (v : Word) (n : Nat) :
    WritesRegister s (applyTransition n (writeReg s rd v) .advance) n rd v s.flags :=
  writesRegister_of_finish hrd v s.flags n

/-! ## The statements -/

/-- Settles O22: LD writes its immediate on every state; the decode errors are the register check and the length
check. -/
theorem loadImmediateResult : Obligations.LoadImmediateResult := by
  refine ⟨fun c rd imm hc => encode_of_register_word hc rfl, fun s rd imm hs hi => ?_,
    fun c rd imm hc hrd => decode_encode_of_missing_register hc rfl rfl hrd, fun c bytes hc hlen => ?_⟩
  · have hrd : rd.val < s.regs.length := lt_regs_length_of_wellFormed hs hi (by simp [Instr.regs])
    exact ⟨_, exec_ld rd imm hi, writesRegister_of_writeReg hrd imm 6⟩
  · exact decodeSlice_of_short (opcodeOfByte_of_default hc .ld) (Nat.succ_lt_succ hlen)

/-- Settles O23: each outcome of the bus check in turn; the value is the four bytes put together. -/
theorem loadResult : Obligations.LoadResult := by
  refine ⟨fun c rd addr hc => encode_of_register_word hc rfl, fun s rd addr hs hi => ?_⟩
  have hrd : rd.val < s.regs.length := lt_regs_length_of_wellFormed hs hi (by simp [Instr.regs])
  intro a m
  split_ifs with hb ha
  · exact exec_load_of_busCheck_error hi (busCheck_outOfBounds hb)
  · exact exec_load_of_busCheck_error hi (busCheck_notAligned (Nat.le_of_not_lt hb) ha)
  · have hexec := exec_load_of_busCheck_ok hi (busCheck_ok (Nat.le_of_not_lt hb) (not_not.1 ha))
    rw [readLE_four] at hexec
    exact ⟨_, hexec, writesRegister_of_writeReg hrd _ 6⟩

/-- Settles O24: each outcome of the bus check in turn; the bytes inside and outside the write are the memory laws. -/
theorem storeResult : Obligations.StoreResult := by
  refine ⟨fun c rs addr hc => encode_of_register_word hc rfl, fun s rs addr hs hi => ?_⟩
  have hm : s.mem.wf := (State.wf_iff.1 hs).1.mem_wf
  intro a
  split_ifs with hb ha
  · exact exec_store_of_busCheck_error hi (busCheck_outOfBounds hb)
  · exact exec_store_of_busCheck_error hi (busCheck_notAligned (Nat.le_of_not_lt hb) ha)
  · exact ⟨_, exec_store_of_busCheck_ok hi (busCheck_ok (Nat.le_of_not_lt hb) (not_not.1 ha)),
      fun k hk => readByte_writeLE_inside 4 hm a _ hk, fun b hout => readByte_writeLE_outside 4 _ a _ hout, rfl⟩

end Sys2Proof.Machine

/-! # ADD, SUB, MUL, INC and DEC: the wrapped exact result

The five differ in the exact integer they compute alone: each hands its wrapped result and wrap bit to the result mux of
class ARITH, so one lemma says what they leave. -/

namespace Sys2Proof.Machine

/-- The constant INC and DEC add and subtract is the integer 1 (41_arithmetic.md R165, R166). -/
theorem s32_bits32_one : s32 (bits32 1) = 1 := by decide

/-- An instruction whose meaning is to put the exact result `e` through the result mux of class ARITH
(41_arithmetic.md R150, R151). -/
theorem exists_writesRegister_of_exec_exact {i : Instr} {s : State} {rd : RegIndex} {e : Int} {n : Nat} (hs : s.wf)
    (hi : i.wellFormed s.config) (hrd : rd ∈ i.regs)
    (hexec : exec i s = .next (sequence n s (finishArith s rd (wrapExact e)))) :
    ∃ t, exec i s = .next t ∧ WritesRegister s t n rd (bits32 e) (arithFlags s.flags e) :=
  ⟨_, hexec, flagsArith_wrapExact e s.flags ▸
    sequence_finishArith (lt_regs_length_of_wellFormed hs hi hrd) s (wrapExact e) n⟩

/-- The encoding of an instruction of format F1R under the default map (30_encoding.md R101, R102). -/
theorem encode_of_register {c : Config} {i : Instr} {r : RegIndex} (hc : c.opcodeMap = defaultOpcodeMap)
    (hi : operandBytes i = [byteOfReg r]) : encode c i = [opcodeByte defaultConfig i.opcode, .ofNat 8 r] := by
  rw [encode, opcodeByte_congr (d := defaultConfig) hc, hi, byteOfReg_eq_ofNat]

/-- Settles O25: the exact sum, difference and product, each through the result mux. -/
theorem addSubMulResult : Obligations.AddSubMulResult := by
  refine ⟨fun c rd rs1 rs2 hc => ?encodings, fun s rd rs1 rs2 hs hi => ?results⟩
  case encodings =>
    exact ⟨encode_of_operandBytes hc rfl, encode_of_operandBytes hc rfl, encode_of_operandBytes hc rfl⟩
  case results =>
    have hrd : rd ∈ [rd, rs1, rs2] := List.mem_cons_self
    exact ⟨exists_writesRegister_of_exec_exact hs hi hrd (exec_add rd rs1 rs2 hi),
      exists_writesRegister_of_exec_exact hs hi hrd (exec_sub rd rs1 rs2 hi),
      exists_writesRegister_of_exec_exact hs hi hrd (exec_mul rd rs1 rs2 hi)⟩

/-- Settles O28: as ADD and SUB, with the constant 1 for the second operand. -/
theorem incDecResult : Obligations.IncDecResult := by
  refine ⟨fun c rd hc => ?encodings, fun s rd hs hr => ?results⟩
  case encodings => exact ⟨encode_of_register hc rfl, encode_of_register hc rfl⟩
  case results =>
    have hi : (Instr.inc rd).wellFormed s.config := List.forall_mem_singleton.2 hr
    have hinc := exec_inc rd hi
    have hdec := exec_dec rd hi
    rw [ovfAdd, s32_bits32_one] at hinc
    rw [ovfSub, s32_bits32_one] at hdec
    have hrd : rd ∈ [rd] := List.mem_cons_self
    exact ⟨exists_writesRegister_of_exec_exact hs hi hrd hinc, exists_writesRegister_of_exec_exact hs hi hrd hdec⟩

end Sys2Proof.Machine

/-! # AND, OR, XOR, NOT and CMP: encoding, result, flags and frame

The four logic operations differ in the word they compute alone: each hands it to the result mux of class LOGIC, so one
lemma says what they leave. CMP passes no result mux: it changes `zero` and nothing else. -/

namespace Sys2Proof.Machine

/-- The encoding of an instruction of format F2R under the default map (30_encoding.md R101, R102). -/
theorem encode_of_register_pair {c : Config} {i : Instr} {r1 r2 : RegIndex} (hc : c.opcodeMap = defaultOpcodeMap)
    (hi : operandBytes i = [byteOfReg r1, byteOfReg r2]) :
    encode c i = [opcodeByte defaultConfig i.opcode, .ofNat 8 r1, .ofNat 8 r2] := by
  rw [encode, opcodeByte_congr (d := defaultConfig) hc, hi, byteOfReg_eq_ofNat, byteOfReg_eq_ofNat]

/-- Class LOGIC is the spec's flag values (41_arithmetic.md R151, R152). -/
theorem flagsLogic_eq_logicFlags (res : Word) (f : Flags) : flagsLogic res f = logicFlags f res := by
  rw [flagsLogic, isZero_eq, isNegative_eq, logicFlags]

/-- Class LOGIC; the state the sequencer would take an error on plays no part. -/
theorem sequence_finishLogic {s : State} {rd : RegIndex} (hrd : rd.val < s.regs.length) (u : State) (res : Word)
    (n : Nat) : WritesRegister s (sequence n u (finishLogic s rd res)) n rd res (logicFlags s.flags res) := by
  rw [← flagsLogic_eq_logicFlags]
  exact writesRegister_of_finish hrd _ _ n

/-- An instruction whose meaning is to put a word `res` with the property `P` through the result mux of class LOGIC
(41_arithmetic.md R150, R151). -/
theorem exists_writesRegister_of_exec_logic {i : Instr} {s : State} {rd : RegIndex} {res : Word} {n : Nat}
    {P : Word → Prop} (hs : s.wf) (hi : i.wellFormed s.config) (hrd : rd ∈ i.regs)
    (hexec : exec i s = .next (sequence n s (finishLogic s rd res))) (hres : P res) :
    ∃ t res, exec i s = .next t ∧ P res ∧ WritesRegister s t n rd res (logicFlags s.flags res) :=
  ⟨_, res, hexec, hres, sequence_finishLogic (lt_regs_length_of_wellFormed hs hi hrd) s res n⟩

/-- Settles O31: each word operation through the result mux of class LOGIC; its bits are the library's. -/
theorem logicResult : Obligations.LogicResult := by
  refine ⟨fun c rd rs1 rs2 hc => ?encodings, fun s rd rs1 rs2 hs hi => ?binary, fun s rd rs hs hi => ?complement⟩
  case encodings =>
    exact ⟨encode_of_operandBytes hc rfl, encode_of_operandBytes hc rfl, encode_of_operandBytes hc rfl,
      encode_of_register_pair hc rfl⟩
  case binary =>
    have hrd : rd ∈ [rd, rs1, rs2] := List.mem_cons_self
    exact ⟨exists_writesRegister_of_exec_logic hs hi hrd (exec_and rd rs1 rs2 hi) fun _ => BitVec.getLsbD_and,
      exists_writesRegister_of_exec_logic hs hi hrd (exec_or rd rs1 rs2 hi) fun _ => BitVec.getLsbD_or,
      exists_writesRegister_of_exec_logic hs hi hrd (exec_xor rd rs1 rs2 hi) fun _ => BitVec.getLsbD_xor⟩
  case complement =>
    have hbits (k : Nat) (hk : k < 32) : (~~~readReg s rs).getLsbD k = !(readReg s rs).getLsbD k := by
      simp [hk]
    exact exists_writesRegister_of_exec_logic hs hi (rd := rd) List.mem_cons_self (exec_not rd rs hi) hbits

/-- Class CMPC sets zero iff the operands are equal (42_logical_compare.md R184). -/
theorem flagsCompare_zero_iff (a b : Word) (f : Flags) : (flagsCompare a b f).zero = true ↔ a = b := beq_iff_eq

/-- Settles O32: the flags of class CMPC set, then the advance; nothing else is written. -/
theorem compareResult : Obligations.CompareResult :=
  ⟨fun _ _ _ hc => encode_of_register_pair hc rfl, fun s ra rb hi =>
    ⟨_, exec_cmp ra rb hi, flagsCompare_zero_iff (readReg s ra) (readReg s rb) s.flags, fun _ => rfl, rfl⟩⟩

end Sys2Proof.Machine

/-! # JMP, JN, JNN, JZ, CALL and RET: encoding, effect and errors

A jump writes nothing but the pc, so the conditional jumps share one lemma about the sequencer. CALL and RET get one
equation per outcome of their push and pop, and a CALL followed by a RET is those two equations in a row. -/

namespace Sys2Proof.Machine

/-- The encoding of an instruction of format FA under the default map (30_encoding.md R101, R102). -/
theorem encode_of_word {c : Config} {i : Instr} {v : Word} (hc : c.opcodeMap = defaultOpcodeMap)
    (hi : operandBytes i = wordBytes v) :
    encode c i = [opcodeByte defaultConfig i.opcode, v.extractLsb' 0 8, v.extractLsb' 8 8, v.extractLsb' 16 8,
      v.extractLsb' 24 8] := by
  rw [encode, opcodeByte_congr (d := defaultConfig) hc, hi]
  rfl

/-! ## Jumps -/

/-- With the pc at or beyond the program's end a step is InvalidInstruction (30_encoding.md R108). -/
theorem step_of_length_le_pc {s : State} (hr : s.run = .running) (h : s.prog.length ≤ s.pc.toNat) :
    step s = .next (raiseError s .invalidInstruction) :=
  step_of_decode_error hr (decode_of_length_le s.config h)

/-- The two ways on from a jump that is taken where `p` holds (43_control.md R191 to R193). -/
theorem sequence_branch (s : State) (addr : Word) (p : Prop) [Decidable p] :
    sequence 5 s (.ok (s, if p then .jumpTo addr else .advance)) =
      if p then { s with pc := addr, steps := s.steps + 1 } else { s with pc := s.pc + 5, steps := s.steps + 1 } := by
  split <;> rfl

/-- Settles O33: the jump writes the pc and the count; a pc beyond the program has nothing to decode. -/
theorem jumpResult : Obligations.JumpResult :=
  ⟨fun _ _ hc => encode_of_word hc rfl, fun s addr =>
    ⟨_, exec_jmp s addr, rfl, fun hr hend => step_of_length_le_pc hr hend⟩⟩

/-- Settles O34: each of the three is the branch on its flag. -/
theorem conditionalJumpResult : Obligations.ConditionalJumpResult := by
  refine ⟨fun c addr hc => ?encodings, fun s addr => ?effects⟩
  case encodings => exact ⟨encode_of_word hc rfl, encode_of_word hc rfl, encode_of_word hc rfl⟩
  case effects =>
    refine ⟨?jn, ?jnn, ?jz⟩
    case jn => rw [exec_jn, sequence_branch]
    case jnn => simp only [exec_jnn, sequence_branch, Bool.not_eq_true']
    case jz => rw [exec_jz, sequence_branch]

/-! ## CALL and RET by the outcome of the push and the pop -/

/-- The value CALL pushes, by CALL_LINK (43_control.md R194). -/
theorem linkValue_eq_ite (s : State) : linkValue s = if s.config.callLink = .next then s.pc + 5 else s.pc := by
  cases h : s.config.callLink <;> simp [linkValue, h]

theorem exec_call_of_full {s : State} (addr : Word) (h : s.stk.length = s.config.stackCap) :
    exec (.call addr) s = .next (raiseError s .stackOverflow) := by
  rw [exec_call, stackPush_of_full h, sequence_error]

/-- The push tests for a stack of exactly STACK_CAP entries (20_memory.md R80), so this needs no invariant. -/
theorem exec_call_of_not_full {s : State} (addr : Word) (h : s.stk.length ≠ s.config.stackCap) :
    exec (.call addr) s = .next (applyTransition 5 { s with stk := s.stk ++ [linkValue s] } (.jumpTo addr)) := by
  rw [exec_call, stackPush, if_neg h, sequence_ok]

theorem exec_ret_of_nil {s : State} (h : s.stk = []) : exec .ret s = .next (raiseError s .stackUnderflow) := by
  rw [exec_ret, stackPop_of_nil h, sequence_error]

/-- Settles O35: the two outcomes of the push; a decoded CALL ends within the program, whose length fits in 32
bits. -/
theorem callResult : Obligations.CallResult := by
  refine ⟨fun c addr hc => encode_of_word hc rfl, fun s addr => ?effect, fun s addr hs hd => ?decoded⟩
  case effect =>
    split
    next hfull => exact exec_call_of_full addr hfull
    next hroom =>
      rw [← linkValue_eq_ite]
      exact exec_call_of_not_full addr hroom
  case decoded =>
    have hprog : s.prog.length < 2 ^ 32 := (State.wf_iff.1 hs).2.prog_length
    exact ⟨length_le_of_decode hd, toNat_add_length_of_decode hprog hd⟩

/-- Settles O36: the two outcomes of the pop. -/
theorem returnResult : Obligations.ReturnResult := by
  refine ⟨fun c hc => ?encoding, fun s => exec_ret_of_nil, fun s below v => exec_ret_of_top⟩
  case encoding =>
    rw [encode, opcodeByte_congr (d := defaultConfig) hc]
    rfl

/-! ## CALL and then RET -/

/-- Where a CALL completes, a RET right after it goes to the link value, with the stack as it was before the CALL
(43_control.md R194, R195). -/
theorem exec_ret_after_call {s t : State} {addr : Word} (hroom : s.stk.length < s.config.stackCap)
    (h : exec (.call addr) s = .next t) :
    exec .ret t = .next { s with pc := linkValue s, steps := s.steps + 2 } := by
  rw [exec_call_of_room addr hroom] at h
  cases h
  exact exec_ret_of_top rfl

/-- Settles O37: the link value is the offset after the CALL under NEXT, and the CALL's own under SELF. -/
theorem returnComesBackAfterTheCall : Obligations.ReturnComesBackAfterTheCall := by
  intro s addr hroom
  have hcall := exec_call_of_room addr hroom
  refine ⟨_, hcall, rfl, fun hnext => ?_, fun hself => ?_⟩
  · rw [exec_ret_after_call hroom hcall, linkValue_eq_ite, if_pos hnext]
  · have hne : s.config.callLink ≠ .next := by simp [hself]
    rw [exec_ret_after_call hroom hcall, linkValue_eq_ite, if_neg hne]

end Sys2Proof.Machine

/-! # PUSHREG, POPREG, CLF, HLT and NOP: encoding, effect, errors and frame

PUSHREG and POPREG get one equation per outcome of their push and pop. HLT is the one instruction whose transition is
Halt, so a step that ends Halted has decoded it (`exec_run_halted_iff`). -/

namespace Sys2Proof.Machine

/-- The encoding of an instruction of format F0 under the default map (30_encoding.md R101, R102). -/
theorem encode_of_no_operands {c : Config} {i : Instr} (hc : c.opcodeMap = defaultOpcodeMap)
    (hi : operandBytes i = []) : encode c i = [opcodeByte defaultConfig i.opcode] := by
  rw [encode, opcodeByte_congr (d := defaultConfig) hc, hi]

/-! ## PUSHREG and POPREG by the outcome of the push and the pop -/

theorem exec_pushreg_of_full {s : State} {r : RegIndex} (hi : (Instr.pushreg r).wellFormed s.config)
    (h : s.stk.length = s.config.stackCap) : exec (.pushreg r) s = .next (raiseError s .stackOverflow) := by
  rw [exec_pushreg r hi, stackPush_of_full h, sequence_error]

/-- The push tests for a stack of exactly STACK_CAP entries (20_memory.md R80), so this needs no invariant. -/
theorem exec_pushreg_of_not_full {s : State} {r : RegIndex} (hi : (Instr.pushreg r).wellFormed s.config)
    (h : s.stk.length ≠ s.config.stackCap) :
    exec (.pushreg r) s = .next (applyTransition 2 { s with stk := s.stk ++ [readReg s r] } .advance) := by
  rw [exec_pushreg r hi, stackPush, if_neg h, sequence_ok]

theorem exec_popreg_of_nil {s : State} {r : RegIndex} (hi : (Instr.popreg r).wellFormed s.config)
    (h : s.stk = []) : exec (.popreg r) s = .next (raiseError s .stackUnderflow) := by
  rw [exec_popreg r hi, stackPop_of_nil h, sequence_error]

/-- Settles O38: the two outcomes of the push, and the two of the pop; the popped entry is written to a register on
the state with the shorter stack. -/
theorem pushPopRegisterResult : Obligations.PushPopRegisterResult := by
  refine ⟨fun c r hc => ?encodings, fun s r hi => ?push, fun s r hi => exec_popreg_of_nil hi,
    fun s r below v hs hi htop => ?pop⟩
  case encodings => exact ⟨encode_of_register hc rfl, encode_of_register hc rfl⟩
  case push =>
    split
    next hfull => exact exec_pushreg_of_full hi hfull
    next hroom => exact exec_pushreg_of_not_full hi hroom
  case pop =>
    have hr : r ∈ (Instr.popreg r).regs := List.mem_cons_self
    have hlen : r.val < s.regs.length := lt_regs_length_of_wellFormed hs hi hr
    exact ⟨_, exec_popreg_of_top (hi r hr) htop, writesRegister_of_writeReg (s := { s with stk := below }) hlen v 2⟩

/-! ## HLT -/

/-- From a Running state HLT alone leads to Halted: another instruction leaves the run Running or faults
(10_state.md R31, R34). -/
theorem exec_run_halted_iff {i : Instr} {s t : State} (hr : s.run = .running) (h : exec i s = .next t) :
    t.run = .halted ↔ i = .hlt := by
  constructor
  · intro ht
    obtain ⟨-, ⟨e, rfl⟩ | ⟨u, tr, rfl, hx⟩⟩ := exec_next_cases h
    · cases ht
    · rw [hx.applyTransition_run hr] at ht
      by_contra hi
      rw [if_neg (mt hx.halt_iff.1 hi)] at ht
      cases ht
  · rintro rfl
    rw [exec_hlt] at h
    cases h
    rfl

/-- Settles O12: HLT's byte is not taken from the map; a step that ends Halted took no decode error, and
executed HLT. -/
theorem haltExactlyOnHlt : Obligations.HaltExactlyOnHlt := by
  refine ⟨fun _ => ⟨rfl, rfl⟩, exec_hlt, fun s t hr h => ?_⟩
  cases hd : decode s.config s.prog s.pc.toNat with
  | error e =>
    rw [step_of_decode_error hr hd] at h
    cases h
    simp
  | ok i =>
    rw [step_of_decode_ok hr hd] at h
    rw [exec_run_halted_iff hr h, Except.ok.injEq]

/-! ## CLF and NOP -/

theorem flagsClear_of_carry_false {f : Flags} (h : f.carry = false) :
    flagsClear f = { zero := false, carry := false, overflow := false, negative := false } := by
  rw [flagsClear, h]

/-- Settles O41: class CLR keeps carry, and in a good state carry is false. -/
theorem clearFlagsResult : Obligations.ClearFlagsResult := by
  refine ⟨fun c hc => encode_of_no_operands hc rfl, exec_clf, fun s t hs h => ?_⟩
  have hcarry : s.flags.carry = false := (State.wf_iff.1 hs).1.carry
  rw [exec_clf] at h
  cases h
  exact flagsClear_of_carry_false hcarry

/-- Settles O42: NOP answers its own state with the advance. -/
theorem nopResult : Obligations.NopResult :=
  ⟨fun _ hc => encode_of_no_operands hc rfl, exec_nop⟩

end Sys2Proof.Machine

/-! # The errors: what a fault leaves, which step raises which error, and the host's errors

A step faults by taking an error on the state as it was, so it leaves everything else. Which error it takes is said
once for the decoder (`decode_error_cases`) and once for every instruction (`Raises`, `execution_error`). The host's
errors come from ports that had no effect: each effect of `HostEffect` is answered by no error. -/

namespace Sys2Proof

open Sys2Proof.Machine (VmError)

/-- The decoder raises its own three errors alone (30_encoding.md R107 to R110). -/
theorem decode_error_cases {c : Config} {prog : List Byte} {pc : Nat} {e : VmError}
    (h : decode c prog pc = .error e) :
    (∃ b, e = .invalidOpcode b) ∨ e = .invalidInstruction ∨ ∃ n, e = .invalidRegister n := by
  unfold decode at h
  cases hslice : prog.drop pc with
  | nil =>
    rw [hslice, decodeSlice_nil] at h
    cases h
    exact .inr (.inl rfl)
  | cons b0 rest =>
    rw [hslice] at h
    cases hop : opcodeOfByte c b0 with
    | none =>
      rw [decodeSlice_of_none hop] at h
      cases h
      exact .inl ⟨b0, rfl⟩
    | some op =>
      rw [decodeSlice_cons hop] at h
      split at h
      · cases h
        exact .inr (.inl rfl)
      · split at h <;> cases h
        exact .inr (.inr ⟨_, rfl⟩)

end Sys2Proof

namespace Sys2Proof.Machine

/-! ## What a fault leaves -/

/-- An instruction of a Running run that completes does not fault. -/
theorem Executes.applyTransition_run_ne_faulted {i : Instr} {s u : State} {tr : Transition}
    (h : Executes i s u tr) (hr : s.run = .running) (n : Nat) : (applyTransition n u tr).run ≠ .faulted := by
  rw [h.applyTransition_run hr]
  split <;> simp

/-- Settles O10: a step that ends Faulted did not complete an instruction, so it took an error on the state before
it. -/
theorem faultsArePrecise : Obligations.FaultsArePrecise := by
  intro s t hr h hfaulted
  obtain ⟨-, ⟨e, rfl⟩ | ⟨i, u, tr, rfl, hx⟩⟩ := step_next_outcome h
  · exact ⟨e, rfl⟩
  · exact absurd hfaulted (hx.applyTransition_run_ne_faulted hr _)

/-! ## Which instruction raises which error -/

/-- The errors an instruction's execution can answer, each with its condition on the state (60_exceptions.md R220,
R222). -/
inductive Raises (s : State) : Instr → VmError → Prop where
  | outOfBounds {i : Instr} {r : RegIndex} {addr : Word} (hi : i = .load r addr ∨ i = .store r addr)
      (hb : s.config.memCap < addr.toNat + 4) : Raises s i (.memoryOutOfBounds addr.toNat 4)
  | notAligned {i : Instr} {r : RegIndex} {addr : Word} (hi : i = .load r addr ∨ i = .store r addr)
      (hb : addr.toNat + 4 ≤ s.config.memCap) (ha : addr.toNat % 4 ≠ 0) :
      Raises s i (.memoryNotAligned addr.toNat 4)
  | divisionByZero {i : Instr} {rd rs1 rs2 : RegIndex} (hi : i = .div rd rs1 rs2 ∨ i = .mod rd rs1 rs2)
      (hmode : s.config.div0Mode = .fault) (hzero : readReg s rs2 = 0) : Raises s i .divisionByZero
  | underflow {i : Instr} (hi : i = .ret ∨ ∃ r, i = .popreg r) (hempty : s.stk = []) : Raises s i .stackUnderflow
  | overflow {i : Instr} (hi : (∃ a, i = .call a) ∨ ∃ r, i = .pushreg r)
      (hfull : s.stk.length = s.config.stackCap) : Raises s i .stackOverflow

/-- A division by zero raises under DIV0_MODE = FAULT alone, where finishing a draw raises nothing
(41_arithmetic.md R154). -/
theorem divZero_error {s : State} {finish : State → Word × Bool → Execution} {e : VmError}
    (h : divZero s finish = .error e) (hfinish : ∀ u r, finish u r ≠ .error e) :
    s.config.div0Mode = .fault ∧ e = .divisionByZero := by
  by_cases hmode : s.config.div0Mode = .fault
  · rw [divZero_of_fault _ hmode] at h
    cases h
    exact ⟨hmode, rfl⟩
  · rw [divZero_of_draw _ hmode] at h
    exact absurd h (hfinish _ _)

/-- What an execution's error says of the instruction and the state. -/
theorem execution_error {i : Instr} {s : State} {e : VmError} (h : execution i s = .error e) : Raises s i e := by
  cases i with
  | load rd addr =>
    simp only [execution] at h
    split at h <;> cases h
    next hm =>
      rcases memRead_cases hm with ⟨hb, e⟩ | ⟨hb, ha, e⟩ | ⟨-, -, e⟩ <;> cases e
      · exact .outOfBounds (.inl rfl) hb
      · exact .notAligned (.inl rfl) hb ha
  | store rs addr =>
    simp only [execution] at h
    split at h <;> cases h
    next hm =>
      rcases memWrite_cases hm with ⟨hb, e⟩ | ⟨hb, ha, e⟩ | ⟨-, -, e⟩ <;> cases e
      · exact .outOfBounds (.inr rfl) hb
      · exact .notAligned (.inr rfl) hb ha
  | div rd rs1 rs2 | mod rd rs1 rs2 =>
    simp only [execution] at h
    split at h
    next hzero =>
      obtain ⟨hmode, rfl⟩ := divZero_error h fun _ _ => nofun
      exact .divisionByZero (rd := rd) (rs1 := rs1) (by simp) hmode (s32_eq_zero_iff.1 hzero)
    next => cases h
  | call _ | pushreg _ =>
    simp only [execution] at h
    split at h <;> cases h
    next hp =>
      rcases stackPush_cases hp with ⟨hfull, e⟩ | ⟨-, e⟩ <;> cases e
      exact .overflow (by simp) hfull
  | ret | popreg _ =>
    simp only [execution] at h
    split at h <;> cases h
    next hp =>
      rcases stackPop_cases hp with ⟨hempty, e⟩ | ⟨_, _, -, e⟩ <;> cases e
      exact .underflow (by simp) hempty
  | _ => cases h

/-- Where no error was latched before an instruction, one latched after it is the one its execution answers. -/
theorem execution_of_exec_err {i : Instr} {s t : State} {e : VmError} (hs : s.err = none)
    (h : exec i s = .next t) (ht : t.err = some e) : execution i s = .error e := by
  obtain ⟨-, rfl⟩ := exec_next_iff.1 h
  cases hx : execution i s with
  | error e' =>
    rw [hx, sequence_error, raiseError_err] at ht
    cases ht
    rfl
  | ok x =>
    obtain ⟨u, tr⟩ := x
    rw [hx, sequence_ok, applyTransition_err, (execution_ok hx).1.err_eq, hs] at ht
    cases ht

/-- Settles O11: a good Running state has no error latched, so the error is the decode's, which is one of three, or
the one that executing the decoded instruction answers. -/
theorem eachErrorHasItsSource : Obligations.EachErrorHasItsSource := by
  intro s t e hs h he
  obtain ⟨hr, ⟨e', hd, rfl⟩ | ⟨i, hd, hexec⟩⟩ := step_next_cases h
  · cases he
    rcases decode_error_cases hd with ⟨b, rfl⟩ | rfl | ⟨n, rfl⟩ <;> exact hd
  · have hclean : s.err = none := (State.wf_iff.1 hs).2.err_of_running hr
    have hdecoded : decode s.config s.prog s.pc.toNat = .ok i := hd
    simp only [hdecoded, Except.ok.injEq]
    cases execution_error (execution_of_exec_err hclean hexec he) with
    | outOfBounds hi hb => exact ⟨rfl, hb, _, _, rfl, hi⟩
    | notAligned hi hb ha => exact ⟨rfl, hb, ha, _, _, rfl, hi⟩
    | divisionByZero hi hmode hzero => exact ⟨hmode, _, _, _, hzero, hi⟩
    | underflow hi hempty => exact ⟨hempty, hi⟩
    | overflow hi hfull => exact ⟨hfull, hi⟩

/-! ## The host's errors -/

section Ports

variable {s : State} (hr : s.run ≠ .running)
include hr

theorem hostStep_run {program : List Byte} (h : program.length < 2 ^ 32) :
    hostStep s (.run program) = some (startRun s program, .done) := by
  simp only [hostStep, if_neg hr, if_pos h]

theorem hostStep_push (v : Word) : hostStep s (.push v) = some (hostWrite s (stackPush s v)) := if_neg hr

theorem hostStep_pop_of_ok {v : Word} {t : State} (h : stackPop s = .ok (v, t)) :
    hostStep s .pop = some (t, .value v) := by
  simp only [hostStep, if_neg hr, h]

end Ports

/-- Settles O48: a command that had an effect was answered `done` or a value. -/
theorem hostErrorsChangeNothing : Obligations.HostErrorsChangeNothing := by
  intro s t cmd e h
  have hr : s.run ≠ .running := fun hr => by
    rw [hostStep_of_running hr] at h
    cases h
  cases hostStep_effect h with
  | unchanged => rfl
  | started hlen =>
    rw [hostStep_run hr hlen] at h
    cases h
  | wrote hw =>
    rw [hostStep_writeMemory hr, hw] at h
    cases h
  | clearedMemory =>
    rw [hostStep_clearMemory hr] at h
    cases h
  | pushed hp =>
    rw [hostStep_push hr, hp] at h
    cases h
  | popped hp =>
    rw [hostStep_pop_of_ok hr hp] at h
    cases h
  | clearedStack =>
    rw [hostStep_clearStack hr] at h
    cases h

end Sys2Proof.Machine

/-! # Construction, the start of a run, and the inert carry flag

The start of a run is a construction with the program loaded, so one lemma about the constructed state gives the reset
values of both. Carry is written by no flag class, so by no completed execution, and an induction over the driver
carries it through a run. -/

namespace Sys2Proof.Machine

/-! ## The reset values (70_reset_and_hazards.md R250, R251, R254) -/

theorem readReg_construct (c : Config) (r : RegIndex) : readReg (State.construct c) r = 0 := by
  rw [readReg, State.construct, List.getD_eq_getElem?_getD, List.getElem?_replicate]
  split <;> rfl

theorem construct_cleared (c : Config) : Cleared (State.construct c) :=
  ⟨List.length_replicate, readReg_construct c, rfl, rfl, rfl, rfl, rfl, readByte_nil, rfl, rfl, rfl⟩

/-- `Cleared` reads none of the fields in which the start of a run differs from a construction. -/
theorem startRun_cleared (s : State) (program : List Byte) : Cleared (startRun s program) :=
  construct_cleared s.config

/-- A host command after which the run is Ready changed at most memory and stack. -/
theorem HostEffect.frame_of_ready {s t : State} {cmd : HostCommand} (h : HostEffect s cmd t) (ht : t.run = .ready) :
    t = { s with mem := t.mem, stk := t.stk } := by
  rcases h.frame with ⟨program, rfl⟩ | hframe
  · cases h with
    | started _ => exact absurd ht nofun
    | unchanged => rfl
  · exact hframe

/-- Settles O1: construction writes these values, reset is a construction, and a host command that leaves the run
Ready leaves the program buffer, the step count and the error latch alone. -/
theorem constructionState : Obligations.ConstructionState := by
  refine ⟨fun c => ⟨construct_cleared c, rfl, rfl, rfl, rfl, rfl⟩, ⟨defaultConfig, defaultConfig_legal, rfl⟩, ?_⟩
  intro s t cmd reply _ hprog hsteps herr h ht
  rw [(hostStep_effect h).frame_of_ready ht]
  exact ⟨hprog, hsteps, herr⟩

/-- Settles O2: the host's `run` outside a run answers the start of the run, which clears what construction does. -/
theorem startOfRunClears : Obligations.StartOfRunClears :=
  ⟨fun c => ⟨construct_cleared c, rfl⟩, fun s program hr hlen =>
    ⟨startRun s program, hostStep_run hr hlen, startRun_cleared s program, rfl, rfl, rfl⟩⟩

/-! ## Carry (10_state.md R26) -/

/-- What every step keeps, the driver keeps under any fuel (10_state.md R38). -/
theorem drive_keeps {P : State → Prop} (hstep : ∀ s t, P s → step s = .next t → P t) (fuel : Nat) :
    ∀ s, P s → P (drive fuel s) := by
  induction fuel with
  | zero => exact fun _ hs => hs
  | succ fuel ih =>
    intro s hs
    rw [drive]
    split
    · next t ht => exact ih t (hstep s t hs ht)
    · exact hs
    · exact hs

/-- R151: no flag class writes carry. -/
theorem Completes.carry_eq {s u : State} {i : Instr} (h : Completes s i u) : u.flags.carry = s.flags.carry := by
  cases h with
  | modulo => exact flagsMod_carry _ _ _
  | untouched | loaded | stored | stacked | popped | arith | logic | compared | cleared => rfl

theorem exec_carry {i : Instr} {s t : State} (h : exec i s = .next t) : t.flags.carry = s.flags.carry := by
  rcases exec_next_completes h with ⟨e, rfl⟩ | ⟨u, hu, rfl⟩
  · rw [raiseError_flags]
  · rw [applyTransition_flags, hu.carry_eq]

theorem step_carry {s t : State} (h : step s = .next t) : t.flags.carry = s.flags.carry := by
  obtain ⟨-, ⟨e, -, rfl⟩ | ⟨i, -, hi⟩⟩ := step_next_cases h
  · rw [raiseError_flags]
  · exact exec_carry hi

/-- Settles O20: carry is false at construction and so at the start of a run, every instruction leaves it, and the
driver keeps what every step keeps. -/
theorem carryIsInert : Obligations.CarryIsInert :=
  ⟨fun _ => rfl, fun _ _ => rfl, fun _ _ _ => exec_carry,
    drive_keeps fun _ _ hs ht => (step_carry ht).trans hs⟩

end Sys2Proof.Machine

/-! # Truncated division in 32 bits: when it wraps, and what quotient and remainder rebuild

Each exact result but one is the signed value of a word, and such a result does not wrap (`wrapExact_s32`): the
remainder of any two words, and their quotient unless it is -2^31 by -1. -/

namespace Sys2Proof.Machine

theorem bits32_s32 (v : Word) : bits32 (s32 v) = v := BitVec.ofInt_toInt

/-- Wrapping keeps sums and products modulo 2^32. -/
theorem bits32_mul_add (q d r : Int) : bits32 (q * d + r) = bits32 q * bits32 d + bits32 r :=
  (BitVec.ofInt_add _ _).trans (congrArg (· + bits32 r) (BitVec.ofInt_mul _ _))

/-- The signed value of a word lies in R12's range and is wrapped to the word itself. -/
theorem wrapExact_s32 (v : Word) : wrapExact (s32 v) = (v, false) := by
  have hlow : -2 ^ 31 ≤ s32 v := BitVec.le_toInt v
  have hhigh : s32 v < 2 ^ 31 := BitVec.toInt_lt
  have hwraps : wraps (s32 v) = false := decide_eq_false (by omega)
  rw [wrapExact, hwraps, bits32_s32]

/-- The exact remainder of two words is itself the signed value of a word, so it never wraps. -/
theorem ovfRem_eq_srem (a b : Word) : ovfRem a b = (a.srem b, false) := by
  rw [ovfRem_eq_wrapExact_tmod, ← BitVec.toInt_srem, wrapExact_s32]

theorem s32_ovfRem (a b : Word) : s32 (ovfRem a b).1 = (s32 a).tmod (s32 b) := by
  rw [ovfRem_eq_srem]
  exact BitVec.toInt_srem a b

/-- Unless -2^31 is divided by -1, the exact quotient is the signed value of a word. -/
theorem ovfDiv_eq_sdiv {a b : Word} (h : a ≠ 0x80000000 ∨ b ≠ 0xFFFFFFFF) : ovfDiv a b = (a.sdiv b, false) := by
  rw [ovfDiv, ← BitVec.toInt_sdiv_of_ne_or_ne a b h, wrapExact_s32]

/-- -2^31 by -1 is 2^31, which wraps to -2^31. -/
theorem ovfDiv_minimum_neg_one : ovfDiv 0x80000000 0xFFFFFFFF = (0x80000000, true) := by decide

/-- R13: the division's wrap bit. -/
theorem ovfDiv_wraps_iff (a b : Word) : (ovfDiv a b).2 = true ↔ a = 0x80000000 ∧ b = 0xFFFFFFFF := by
  constructor
  · intro hwraps
    by_contra hother
    rw [ovfDiv_eq_sdiv (not_and_or.1 hother)] at hwraps
    exact Bool.false_ne_true hwraps
  · rintro ⟨rfl, rfl⟩
    rw [ovfDiv_minimum_neg_one]

theorem natAbs_s32_ovfRem_lt (a : Word) {b : Word} (hb : b ≠ 0) :
    (s32 (ovfRem a b).1).natAbs < (s32 b).natAbs := by
  rw [s32_ovfRem, Int.natAbs_tmod]
  exact Nat.mod_lt _ (Int.natAbs_pos.2 (mt s32_eq_zero_iff.1 hb))

/-- Settles O29: the one quotient outside R12's range is that of -2^31 by -1, and the remainder is always a word's
value. -/
theorem divisionWrapsOnlyAtTheMinimum : Obligations.DivisionWrapsOnlyAtTheMinimum := by
  intro a b hb
  refine ⟨ovfDiv_wraps_iff a b, ?_, ?_, ?_, natAbs_s32_ovfRem_lt a hb⟩
  · rw [ovfDiv_minimum_neg_one]
  · rw [ovfRem_eq_srem]
  · rw [ovfRem_eq_srem]
    decide

/-- The exact identity survives the wrapping, at the overflowing quotient too. -/
theorem ovfDiv_mul_add_ovfRem (a b : Word) : (ovfDiv a b).1 * b + (ovfRem a b).1 = a := by
  rw [ovfDiv, ovfRem_eq_wrapExact_tmod]
  calc bits32 ((s32 a).tdiv (s32 b)) * b + bits32 ((s32 a).tmod (s32 b))
      = bits32 ((s32 a).tdiv (s32 b) * s32 b + (s32 a).tmod (s32 b)) := by rw [bits32_mul_add, bits32_s32]
    _ = a := by rw [Int.tdiv_mul_add_tmod, bits32_s32]

/-- R12's rounding toward zero: a remainder below zero comes from a dividend below zero. -/
theorem s32_neg_of_ovfRem_neg {a b : Word} (h : s32 (ovfRem a b).1 < 0) : s32 a < 0 := by
  rw [s32_ovfRem] at h
  exact not_le.1 fun hnonneg => absurd (Int.tmod_nonneg _ hnonneg) (not_le.2 h)

/-- R12's rounding toward zero: negating the dividend negates the remainder, so this is the other sign's case. -/
theorem s32_pos_of_ovfRem_pos {a b : Word} (h : 0 < s32 (ovfRem a b).1) : 0 < s32 a := by
  rw [s32_ovfRem] at h
  by_contra hnonpos
  have hneg : 0 ≤ (-s32 a).tmod (s32 b) := Int.tmod_nonneg _ (by omega)
  rw [Int.neg_tmod] at hneg
  omega

/-- Settles O30: the identity of truncated division, wrapped, and the remainder's sign. -/
theorem quotientAndRemainderRebuildTheDividend : Obligations.QuotientAndRemainderRebuildTheDividend :=
  fun a b _ => ⟨ovfDiv_mul_add_ovfRem a b, s32_pos_of_ovfRem_pos, s32_neg_of_ovfRem_neg⟩

end Sys2Proof.Machine
